-- ==== Sys2Proof/Word.lean ====
section
/-! DEFINITION. The octet, the unit of every buffer (R7, R30). -/

namespace Sys2Proof

/-- An octet: an integer 0 to 255, bit 7 the most significant (R7). -/
abbrev Byte := BitVec 8

end Sys2Proof
end

