-- ==== Sys2Proof/Config.lean ====
section
/-! DEFINITION. What is fixed for the block (R5), what an instance is configured with (R6, R20), and the free values. -/

namespace Sys2Proof

/-- A secondary header, the mission's type `SH` (R20, U16), written as plain data: one byte sequence for each value of
the mission's type. DESIGN CHOICE, log entry 9. -/
structure SecHeader where
  rep : List Byte
  deriving DecidableEq, Repr, Inhabited

/-- The mission decoder's own error, the type `E` (R20, U16), written as plain data. DESIGN CHOICE, log entry 9. -/
structure MissionError where
  code : Nat
  deriving DecidableEq, Repr, Inhabited

/-- The three-way result of `sh_decode` (R20, D19). -/
inductive ShDecode where
  | ok (sh : SecHeader) (consumed : Nat)
  | short
  | fail (e : MissionError)
  deriving DecidableEq, Repr, Inhabited

/-- Which capability is bound to an instance (R20, R181), by name. `fixed k` is R120's `Fixed2` at `k = 2`: `k` octets,
verbatim. `constant r` is one "whose `sh_decode` ignores its input" (R132) and answers `r`; with `r = .fail e` it is
`FailAll` of 95_test_vectors.md. `unbound` is the instance with no capability (R181).
`mission id` is any other mission's, about which nothing is known. DESIGN CHOICE, log entry 2. -/
inductive Cap where
  | fixed (octets : Nat)
  | constant (r : ShDecode)
  | unbound
  | mission (id : Nat)
  deriving DecidableEq, Repr

/-- The static configuration of one instance (R6, R18): no operation writes it. -/
structure Params where
  cap : Cap
  maxBuf : Nat
  deriving DecidableEq, Repr

namespace Config

/-! The fixed parameters of R5. -/

@[simp] abbrev hdrOctets : Nat := 6
@[simp] abbrev hdrBits : Nat := 48
@[simp] abbrev wVersion : Nat := 3
@[simp] abbrev wPacketType : Nat := 1
@[simp] abbrev wSecHeaderFlag : Nat := 1
@[simp] abbrev wAppProcId : Nat := 11
@[simp] abbrev wSequenceFlags : Nat := 2
@[simp] abbrev wSequenceCount : Nat := 14
@[simp] abbrev wDataLength : Nat := 16
@[simp] abbrev nMax : Nat := 16
@[simp] abbrev dataFieldMin : Nat := 1
@[simp] abbrev dataFieldMax : Nat := 65536
@[simp] abbrev packetMin : Nat := 7
@[simp] abbrev packetMax : Nat := 65542

/-- The `version` PKT_BUILD writes (R6, R128): the value decision D15 gives. Log entry 8. -/
@[simp] abbrev buildVersion : Nat := 0

/-- `MAX_BUF` in `State.reset`: the least value with which every legal packet is accepted (R6).
DESIGN CHOICE, log entry 3. -/
@[simp] abbrev resetMaxBuf : Nat := packetMax

/-- The capability in `State.reset`: some mission's, uninterpreted. DESIGN CHOICE, log entry 2. -/
abbrev resetCap : Cap := .mission 0

/-! Free values: nothing constrains them. Log entry 2. -/

/-- `sh_decode` of a mission's capability (R20). -/
opaque missionDecode : Cap → List Byte → ShDecode

/-- `sh_encode` of a capability the spec gives no encoder for (R20). -/
opaque missionEncode : Cap → SecHeader → List Byte

/-- `sh_length` of a capability the spec gives no length for (R20). -/
opaque missionLength : Cap → SecHeader → Nat

/-- The value inside `SecondaryHeaderDecodeFailed` when no capability is bound: R181 names the error, not its value. -/
opaque unboundError : MissionError

end Config

end Sys2Proof
end

