-- ==== Sys2Proof/Syntax.lean ====
section
/-! DEFINITION. The values the operations take (R14 to R16) and the operations themselves: one constructor for each row
of opcode_table.json. -/

namespace Sys2Proof

/-- R14, R56: telemetry or command, one bit. -/
inductive PacketType where
  | data
  | command
  deriving DecidableEq, Repr

/-- R14, R57: whether a Secondary Header follows, one bit. -/
inductive SecHeaderFlag where
  | notPresent
  | present
  deriving DecidableEq, Repr

/-- R14, R58: the segmentation role, two bits. There is no `Unknown` variant (R59). -/
inductive SequenceFlags where
  | continuation
  | firstSegment
  | lastSegment
  | unsegmented
  deriving DecidableEq, Repr

/-- The seven header fields in wire order (R14). The integer fields are naturals, so a record may be out of range; it is
a valid header when `PrimaryHeader.valid` says so. -/
structure PrimaryHeader where
  version : Nat
  packetType : PacketType
  secHeaderFlag : SecHeaderFlag
  appProcId : Nat
  sequenceFlags : SequenceFlags
  sequenceCount : Nat
  dataLength : Nat
  deriving DecidableEq, Repr

/-- The operand of HDR_ENCODE: the same seven fields, unchecked (R15). Log entry 7. -/
abbrev RawHeader := PrimaryHeader

/-- A packet (R16). -/
structure SpacePacket where
  header : PrimaryHeader
  secondary : Option SecHeader
  payload : List Byte
  deriving DecidableEq, Repr

/-- The rows of opcode_table.json: the nine operations (R64), the three host actions (R183 to R185), the four reserved
codes (R67) and the header data format (R50). -/
inductive Instr where
  | take (n : Nat)
  | put (value n : Nat)
  | bytePosition
  | remainingBytes
  | hdrDecode (buf : List Byte)
  | hdrEncode (h : RawHeader)
  | pktParse (buf : List Byte)
  | pktBuild (apid : Nat) (ptype : PacketType) (sflags : SequenceFlags) (scount : Nat) (sh : Option SecHeader) (payload : List Byte)
  | pktToBytes (p : SpacePacket)
  | rdLoad (buf : List Byte)
  | wrClear
  | wrRead
  | reserved0
  | reservedD
  | reservedE
  | reservedF
  | primaryHeader (h : PrimaryHeader)
  deriving DecidableEq, Repr

end Sys2Proof
end

