-- ==== Sys2Proof/WellFormed.lean ====
section
/-! DEFINITION. The ranges the spec gives an operand apart from any state: a bit count (R84) and the fields of an encoded
header (R14). -/

namespace Sys2Proof

/-- `fits(v, n)` of R8. -/
def fits (v n : Nat) : Bool := decide (v < 2 ^ n)

/-- A valid header: every integer field inside its range (R14). -/
def PrimaryHeader.valid (h : PrimaryHeader) : Bool :=
  fits h.version Config.wVersion && fits h.appProcId Config.wAppProcId &&
    fits h.sequenceCount Config.wSequenceCount && fits h.dataLength Config.wDataLength

/-- A legal bit count of TAKE and PUT (R84). -/
def legalCount (n : Nat) : Bool := decide (1 ≤ n) && decide (n ≤ Config.nMax)

/-- A well-formed instruction. TAKE and PUT carry a legal bit count (R84), and a header in the 48-bit format has only
fields that format can hold (R59). HDR_ENCODE and PKT_TO_BYTES take any record (R15, R131), PKT_BUILD any naturals (R126). -/
def Instr.wf : Instr → Bool
  | .take n => legalCount n
  | .put _ n => legalCount n
  | .bytePosition => true
  | .remainingBytes => true
  | .hdrDecode _ => true
  | .hdrEncode _ => true
  | .pktParse _ => true
  | .pktBuild _ _ _ _ _ _ => true
  | .pktToBytes _ => true
  | .rdLoad _ => true
  | .wrClear => true
  | .wrRead => true
  | .reserved0 => true
  | .reservedD => true
  | .reservedE => true
  | .reservedF => true
  | .primaryHeader h => h.valid

/-- `Instr.wf` as a proposition. -/
abbrev Instr.WellFormed (i : Instr) : Prop := i.wf = true

end Sys2Proof
end

