-- ==== Sys2Proof/Decode.lean ====
section
/-! DEFINITION. Requests, the decoder from a request to an instruction, and the encoder back. The encodings are the 4-bit
select codes of R66 and R67 and the 48-bit header format of R50. -/

namespace Sys2Proof

/-! ## Enum codes (R56 to R58, R102) -/

/-- `code_of` for R56. -/
def PacketType.code : PacketType → Nat
  | .data => 0
  | .command => 1

/-- `PacketType_of` (R102) on a raw value of one bit. -/
def PacketType.ofCode : Nat → PacketType
  | 0 => .data
  | _ => .command

/-- `code_of` for R57. -/
def SecHeaderFlag.code : SecHeaderFlag → Nat
  | .notPresent => 0
  | .present => 1

/-- `SecHeaderFlag_of` (R102) on a raw value of one bit. -/
def SecHeaderFlag.ofCode : Nat → SecHeaderFlag
  | 0 => .notPresent
  | _ => .present

/-- `code_of` for R58; the codes 0, 1, 2 are the spec's decision D11. -/
def SequenceFlags.code : SequenceFlags → Nat
  | .continuation => 0
  | .firstSegment => 1
  | .lastSegment => 2
  | .unsegmented => 3

/-- `SequenceFlags_of` (R102) on a raw value of two bits. -/
def SequenceFlags.ofCode : Nat → SequenceFlags
  | 0 => .continuation
  | 1 => .firstSegment
  | 2 => .lastSegment
  | _ => .unsegmented

/-! ## The 48-bit header format (R50) -/

/-- The header word of six octets (R7). -/
def headerWord (b0 b1 b2 b3 b4 b5 : Byte) : BitVec 48 := b0 ++ b1 ++ b2 ++ b3 ++ b4 ++ b5

/-- The fields of a header word by the `W[hi:lo]` column of R50. -/
def headerOfWord (w : BitVec 48) : PrimaryHeader where
  version := (w.extractLsb 47 45).toNat
  packetType := .ofCode (w.extractLsb 44 44).toNat
  secHeaderFlag := .ofCode (w.extractLsb 43 43).toNat
  appProcId := (w.extractLsb 42 32).toNat
  sequenceFlags := .ofCode (w.extractLsb 31 30).toNat
  sequenceCount := (w.extractLsb 29 16).toNat
  dataLength := (w.extractLsb 15 0).toNat

/-- The header word of a valid header, the one-word form of R51. -/
def wordOfHeader (h : PrimaryHeader) : BitVec 48 :=
  BitVec.ofNat 48 (h.version <<< 45 ||| h.packetType.code <<< 44 ||| h.secHeaderFlag.code <<< 43 ||| h.appProcId <<< 32
    ||| h.sequenceFlags.code <<< 30 ||| h.sequenceCount <<< 16 ||| h.dataLength)

/-! ## Requests (R65) -/

/-- The word that selects what is asked for, in one of the two formats of opcode_table.json: OP4, a 4-bit code (R66), or
HDR48, a header word (R50). -/
inductive SelectWord where
  | op4 (op : BitVec 4)
  | hdr48 (w : BitVec 48)
  deriving DecidableEq, Repr

/-- The operands of a request, presented whole (R65), each under the name R64 gives it. An operation reads only those
its row lists. -/
structure Operands where
  n : Nat
  value : Nat
  buf : List Byte
  h : RawHeader
  apid : Nat
  ptype : PacketType
  sflags : SequenceFlags
  scount : Nat
  sh : Option SecHeader
  payload : List Byte
  p : SpacePacket
  deriving DecidableEq, Repr

/-- A request `(op, operands)` (R65). -/
structure Request where
  word : SelectWord
  operands : Operands
  deriving DecidableEq, Repr

/-- The header whose 48 bits are all zero (V-H1). -/
def zeroHeader : PrimaryHeader := headerOfWord 0#48

/-- Operands whose every bit is zero. -/
def Operands.zero : Operands where
  n := 0
  value := 0
  buf := []
  h := zeroHeader
  apid := 0
  ptype := .ofCode 0
  sflags := .ofCode 0
  scount := 0
  sh := none
  payload := []
  p := ⟨zeroHeader, none, []⟩

/-- Why bits are no select word. -/
inductive DecodeError where
  /-- The word is of neither format: not 4 bits (one octet at most) and not 48. -/
  | noSuchFormat
  deriving DecidableEq, Repr

/-- The select word of `nbits` bits with the value `w`, numbered as opcode_table.json numbers them: a code of R66 in bits
3 to 0 of at most one octet, or the word `W` of R7 in 48 bits. Log entry 6. -/
def SelectWord.ofBits (nbits w : Nat) : Except DecodeError SelectWord :=
  if nbits = 48 then .ok (.hdr48 (BitVec.ofNat 48 w))
  else if 1 ≤ nbits ∧ nbits ≤ 8 then .ok (.op4 (BitVec.ofNat 4 w))
  else .error .noSuchFormat

/-- What a 4-bit code selects (R66, R67): every code is a row of the table, so nothing is left to reject. The last arm is
the one code left, `0xF`. -/
def decodeOp (op : BitVec 4) (o : Operands) : Instr :=
  match op.toNat with
  | 0x1 => .take o.n
  | 0x2 => .put o.value o.n
  | 0x3 => .bytePosition
  | 0x4 => .remainingBytes
  | 0x5 => .hdrDecode o.buf
  | 0x6 => .hdrEncode o.h
  | 0x7 => .pktParse o.buf
  | 0x8 => .pktBuild o.apid o.ptype o.sflags o.scount o.sh o.payload
  | 0x9 => .pktToBytes o.p
  | 0xA => .rdLoad o.buf
  | 0xB => .wrClear
  | 0xC => .wrRead
  | 0x0 => .reserved0
  | 0xD => .reservedD
  | 0xE => .reservedE
  | _ => .reservedF

/-- The instruction a request asks for. -/
def decode (r : Request) : Instr :=
  match r.word with
  | .op4 op => decodeOp op r.operands
  | .hdr48 w => .primaryHeader (headerOfWord w)

/-- The select word of an instruction (R66, R67, R51). -/
def Instr.word : Instr → SelectWord
  | .take _ => .op4 0x1#4
  | .put _ _ => .op4 0x2#4
  | .bytePosition => .op4 0x3#4
  | .remainingBytes => .op4 0x4#4
  | .hdrDecode _ => .op4 0x5#4
  | .hdrEncode _ => .op4 0x6#4
  | .pktParse _ => .op4 0x7#4
  | .pktBuild _ _ _ _ _ _ => .op4 0x8#4
  | .pktToBytes _ => .op4 0x9#4
  | .rdLoad _ => .op4 0xA#4
  | .wrClear => .op4 0xB#4
  | .wrRead => .op4 0xC#4
  | .reserved0 => .op4 0x0#4
  | .reservedD => .op4 0xD#4
  | .reservedE => .op4 0xE#4
  | .reservedF => .op4 0xF#4
  | .primaryHeader h => .hdr48 (wordOfHeader h)

/-- The operands of an instruction, those it does not read zero. -/
def Instr.operands : Instr → Operands
  | .take n => { Operands.zero with n := n }
  | .put value n => { Operands.zero with value := value, n := n }
  | .bytePosition => Operands.zero
  | .remainingBytes => Operands.zero
  | .hdrDecode buf => { Operands.zero with buf := buf }
  | .hdrEncode h => { Operands.zero with h := h }
  | .pktParse buf => { Operands.zero with buf := buf }
  | .pktBuild apid ptype sflags scount sh payload =>
      { Operands.zero with apid := apid, ptype := ptype, sflags := sflags, scount := scount, sh := sh, payload := payload }
  | .pktToBytes p => { Operands.zero with p := p }
  | .rdLoad buf => { Operands.zero with buf := buf }
  | .wrClear => Operands.zero
  | .wrRead => Operands.zero
  | .reserved0 => Operands.zero
  | .reservedD => Operands.zero
  | .reservedE => Operands.zero
  | .reservedF => Operands.zero
  | .primaryHeader _ => Operands.zero

/-- The request for an instruction. -/
def encode (i : Instr) : Request := ⟨i.word, i.operands⟩

/-- The instruction the decoder reads from `nbits` table bits of value `w`, every operand bit zero. -/
def decodeTableWord (nbits w : Nat) : Option Instr :=
  match SelectWord.ofBits nbits w with
  | .ok sw => some (decode ⟨sw, Operands.zero⟩)
  | .error _ => none

end Sys2Proof
end

