-- ==== Sys2Proof/Machine/State.lean ====
section
/-! DEFINITION. The state of one instance (R10 to R13), what it hands to the host (R65, R150), the reasons a step can stop,
and the state after reset (R22, R180). -/

namespace Sys2Proof.Machine

/-- The seven errors (R150). Only the wrapped mission error carries a value (R155, D13). -/
inductive SphcError where
  | insufficientData
  | fieldOutOfRange
  | fieldOverflow
  | truncatedPacket
  | secondaryHeaderDecodeFailed (e : MissionError)
  | payloadTooLarge
  | emptyDataField
  deriving DecidableEq, Repr

/-- The result of a successful operation (the result column of R64; `nothing` where it says none). -/
inductive Result where
  | nothing
  | int (v : Nat)
  | bytes (bs : List Byte)
  | header (h : PrimaryHeader) (rest : List Byte)
  | packet (p : SpacePacket)
  deriving DecidableEq, Repr

/-- A response `(status, result)`: the result is present only with status OK (R65, R158). -/
inductive Response where
  | ok (r : Result)
  | error (e : SphcError)
  deriving DecidableEq, Repr

/-- What the host does to the block: it issues a request (R65) or resets it (R180). -/
inductive HostInput where
  | request (r : Request)
  | reset
  deriving DecidableEq, Repr

/-- No fault stops this machine: an error of R150 is the response of a next state, and the block "does not hang, reset or
stop accepting requests because of an error" (R158). -/
inductive Fault where
  deriving DecidableEq, Repr

/-- Why a request has no meaning: the `refuse` of R8, each under its own name. All are safe: the model stops where the spec
gives no result. -/
inductive Refusal where
  /-- An instruction without a meaning; raised by no arm of `exec`. Safe. -/
  | notModelled (mnemonic : String)
  /-- TAKE or PUT with `n = 0` or `n > 16` (R84, U1). Safe. -/
  | badBitCount
  /-- BYTE_POSITION or REMAINING_BYTES with `RPOS mod 8 ≠ 0` (R90, U2). Safe. -/
  | readCursorNotByteAligned
  /-- WR_READ with `WLEN mod 8 ≠ 0` (R185, U3). Safe. -/
  | writtenBitsNotWholeOctets
  /-- PKT_PARSE of a buffer longer than the packet it declares (R124, U4). Safe. -/
  | bufferLongerThanPacket
  /-- HDR_DECODE, PKT_PARSE, RD_LOAD, PKT_BUILD or PKT_TO_BYTES with a buffer longer than MAX_BUF (R44, U8; that a payload is
  such a buffer: log entry 12). Safe. -/
  | bufferLongerThanMaxBuf
  /-- HDR_ENCODE or PKT_TO_BYTES whose result buffer would be longer than MAX_BUF (R30, U8; log entry 12). Safe. -/
  | resultLongerThanMaxBuf
  /-- PUT when `WLEN + n > 8*MAX_BUF` (R86, R44). Safe. -/
  | writeBufferFull
  /-- RESERVED_0, RESERVED_D, RESERVED_E, RESERVED_F: the code selects no operation (R67, U7). Safe. -/
  | reservedOpCode
  /-- PRIMARY_HEADER: a data format, no operation (R50; log entry 6). Safe. -/
  | dataFormatIsNoOperation
  deriving DecidableEq, Repr

/-- How an operation's pseudocode ends (R8): `return`, `raise` or `refuse`. -/
inductive OpResult (α : Type) where
  | done (a : α)
  | raise (e : SphcError)
  | refuse (r : Refusal)
  deriving DecidableEq, Repr

/-- The state of one instance. -/
structure State where
  /-- Static configuration: the capability and MAX_BUF (R6, R20). -/
  cfg : Params
  /-- `RBUF` (R11). -/
  rbuf : List Byte
  /-- `RPOS` (R12). -/
  rpos : Nat
  /-- `WBITS` (R13). -/
  wbits : List Bool
  /-- What the host still issues, in order (R193); the model's own field, log entry 4. -/
  inputs : List HostInput
  /-- The response to the request performed last (R65); no operation reads it, log entry 5. -/
  response : Option Response
  deriving DecidableEq, Repr

/-- What a reset leaves of a state (R180, R22): `Cap` and MAX_BUF are configuration and stay. -/
def State.cleared (s : State) : State := { s with rbuf := [], rpos := 0, wbits := [], response := none }

/-- The state right after reset (R22), with nothing issued yet; its configuration is the model's choice, log entries 2, 3. -/
def State.reset : State where
  cfg := ⟨Config.resetCap, Config.resetMaxBuf⟩
  rbuf := []
  rpos := 0
  wbits := []
  inputs := []
  response := none

end Sys2Proof.Machine
end

