-- ==== Sys2Proof/Machine/Ops.lean ====
section
/-! DEFINITION. The shared operations: bits of a byte sequence (R7, R31), the read and write primitives (R34, R35), the byte
view of the written bits (R13), and how an operation ends (R8): a result, an error (R158), a refusal. -/

namespace Sys2Proof.Machine

/-! ## Bits -/

/-- Stream bit `j` of `s`: `s[j div 8][7 - (j mod 8)]` (R7, R31). -/
def streamBit (s : List Byte) (j : Nat) : Bool := (s.getD (j / 8) 0#8).getLsbD (7 - j % 8)

/-- The `n` bits from index `a` as an unsigned integer, the first bit most significant (R34). -/
def readBits (bit : Nat → Bool) (a : Nat) : Nat → Nat
  | 0 => 0
  | n + 1 => 2 * readBits bit a n + (bit (a + n)).toNat

/-- `BitsOf(s, a, n)` (R34). -/
def bitsOf (s : List Byte) (a n : Nat) : Nat := readBits (streamBit s) a n

/-- `MemRead(a, n)` (R34). -/
def memRead (s : State) (a n : Nat) : Nat := bitsOf s.rbuf a n

/-- The bits `v[n-1], ..., v[0]` (R35). -/
def valueBits (v : Nat) : Nat → List Bool
  | 0 => []
  | n + 1 => v.testBit n :: valueBits v n

/-- `MemWrite(WLEN, n, v)`: appends (R35). -/
def memWrite (s : State) (n v : Nat) : State := { s with wbits := s.wbits ++ valueBits v n }

/-- `WBYTES` (R13): the whole octets of a bit sequence, the first bit in the most significant place. -/
def packBytes (bits : List Bool) : List Byte :=
  (List.range (bits.length / 8)).map fun i => BitVec.ofNat 8 (readBits (fun j => bits.getD j false) (8 * i) 8)

/-! ## How an operation ends -/

/-- `return v` (R8): status OK with a result. -/
def complete (s : State) (r : Result) : Host.Outcome State Fault Refusal :=
  .next { s with response := some (.ok r) }

/-- Taking an error, for every operation (R158): the status of the response is the error, and nothing else is written.
There is no return from an error and nothing to restore (R159). -/
def raiseError (s : State) (e : SphcError) : Host.Outcome State Fault Refusal :=
  .next { s with response := some (.error e) }

/-- The end of an operation that writes no state element (R100, R120). -/
def finish {α : Type} (s : State) (f : α → Result) : OpResult α → Host.Outcome State Fault Refusal
  | .done a => complete s (f a)
  | .raise e => raiseError s e
  | .refuse r => .refused r

/-- The end of an operation whose result is a result buffer: it holds at most MAX_BUF octets (R30), and one that would be
longer is refused (U8). Log entry 12. -/
def finishBuffer (s : State) : OpResult (List Byte) → Host.Outcome State Fault Refusal
  | .done bs => if bs.length ≤ s.cfg.maxBuf then complete s (.bytes bs) else .refused .resultLongerThanMaxBuf
  | .raise e => raiseError s e
  | .refuse r => .refused r

/-- The bound on a buffer the host presents (R44): a longer one is refused. -/
def withinMaxBuf (s : State) (buf : List Byte) (k : Host.Outcome State Fault Refusal) : Host.Outcome State Fault Refusal :=
  if buf.length ≤ s.cfg.maxBuf then k else .refused .bufferLongerThanMaxBuf

end Sys2Proof.Machine
end

