-- ==== Sys2Proof/Machine/Flags.lean ====
section
/-! DEFINITION. The block has no flag and no condition code (R18). What an operation reports is the status of its response;
the numeric codes of the statuses stand here (R150). -/

namespace Sys2Proof.Machine

/-- The numeric code of an error (R150, D12). -/
def SphcError.code : SphcError → Nat
  | .insufficientData => 1
  | .fieldOutOfRange => 2
  | .fieldOverflow => 3
  | .truncatedPacket => 4
  | .secondaryHeaderDecodeFailed _ => 5
  | .payloadTooLarge => 6
  | .emptyDataField => 7

/-- The numeric status of a response, 0 for `OK` (R150). -/
def Response.status : Response → Nat
  | .ok _ => 0
  | .error e => e.code

end Sys2Proof.Machine
end

