-- ==== Sys2Proof/Machine/Operands.lean ====
section
/-! DEFINITION. Operand forms. Every operand is a value presented whole (R65); the one implicit operand is the capability
bound to the instance, whose three functions stand here (R20), with the packet invariant written with them (R16). -/

namespace Sys2Proof

/-- `sh_decode` (R20). -/
def Cap.shDecode : Cap → List Byte → ShDecode
  | .fixed k, x => if x.length < k then .short else .ok ⟨x.take k⟩ k
  | .constant r, _ => r
  | .unbound, _ => .fail Config.unboundError
  | .mission id, x => Config.missionDecode (.mission id) x

/-- `sh_encode` (R20). -/
def Cap.shEncode : Cap → SecHeader → List Byte
  | .fixed _, sh => sh.rep
  | .constant r, sh => Config.missionEncode (.constant r) sh
  | .unbound, sh => Config.missionEncode .unbound sh
  | .mission id, sh => Config.missionEncode (.mission id) sh

/-- `sh_length` (R20). -/
def Cap.shLength : Cap → SecHeader → Nat
  | .fixed k, _ => k
  | .constant r, sh => Config.missionLength (.constant r) sh
  | .unbound, sh => Config.missionLength .unbound sh
  | .mission id, sh => Config.missionLength (.mission id) sh

/-- The octets a secondary header contributes to the Packet Data Field: `sh_length`, 0 when absent (R16, R126). -/
def Cap.lengthOf (cap : Cap) (sh : Option SecHeader) : Nat :=
  match sh with
  | some s => cap.shLength s
  | none => 0

/-- The octets a secondary header contributes to the serialised packet (R129). -/
def Cap.octetsOf (cap : Cap) (sh : Option SecHeader) : List Byte :=
  match sh with
  | some s => cap.shEncode s
  | none => []

/-- The flag that goes with an optional secondary header (R126, R128). -/
def SecHeaderFlag.ofOption (sh : Option SecHeader) : SecHeaderFlag :=
  match sh with
  | some _ => .present
  | none => .notPresent

/-- A valid packet (R16): ranges, presence, length. -/
def SpacePacket.valid (cap : Cap) (p : SpacePacket) : Bool :=
  p.header.valid && decide (p.header.secHeaderFlag = .ofOption p.secondary) &&
    decide (p.header.dataLength + 1 = cap.lengthOf p.secondary + p.payload.length)

end Sys2Proof
end

