-- ==== Sys2Proof/Machine/BitCursor.lean ====
section
/-! DEFINITION. The Bit Cursor: TAKE, PUT, BYTE_POSITION, REMAINING_BYTES (R80 to R90). -/

namespace Sys2Proof.Machine

/-- `TAKE n` (R82, R84). -/
def execTake (n : Nat) (s : State) : Host.Outcome State Fault Refusal :=
  if legalCount n then
    if 8 * s.rbuf.length < s.rpos + n then raiseError s .insufficientData
    else complete { s with rpos := s.rpos + n } (.int (memRead s s.rpos n))
  else .refused .badBitCount

/-- `PUT value, n` (R84, R85); a PUT past `8*MAX_BUF` bits is refused (R86). -/
def execPut (value n : Nat) (s : State) : Host.Outcome State Fault Refusal :=
  if legalCount n then
    if fits value n then
      if s.wbits.length + n ≤ 8 * s.cfg.maxBuf then complete (memWrite s n value) .nothing
      else .refused .writeBufferFull
    else raiseError s .fieldOverflow
  else .refused .badBitCount

/-- `BYTE_POSITION` (R88, R90). -/
def execBytePosition (s : State) : Host.Outcome State Fault Refusal :=
  if s.rpos % 8 = 0 then complete s (.int (s.rpos / 8)) else .refused .readCursorNotByteAligned

/-- `REMAINING_BYTES` (R89, R90): the octets, not their count (C6); `RPOS` stays. -/
def execRemainingBytes (s : State) : Host.Outcome State Fault Refusal :=
  if s.rpos % 8 = 0 then complete s (.bytes (s.rbuf.drop (s.rpos / 8))) else .refused .readCursorNotByteAligned

end Sys2Proof.Machine
end

