-- ==== Sys2Proof/Machine/HeaderCodec.lean ====
section
/-! DEFINITION. The Primary Header Codec: HDR_DECODE and HDR_ENCODE (R100 to R107). -/

namespace Sys2Proof.Machine

/-- The seven fields of the first six octets, read as stream bits (R101). -/
def headerOfOctets (buf : List Byte) : PrimaryHeader where
  version := bitsOf buf 0 3
  packetType := .ofCode (bitsOf buf 3 1)
  secHeaderFlag := .ofCode (bitsOf buf 4 1)
  appProcId := bitsOf buf 5 11
  sequenceFlags := .ofCode (bitsOf buf 16 2)
  sequenceCount := bitsOf buf 18 14
  dataLength := bitsOf buf 32 16

/-- The same seven fields by masks and shifts, octet by octet (R52): the other derivation of R54. That it agrees with
`headerOfOctets` is `headerOfMasks_eq_headerOfOctets` of Laws/HeaderCodec.lean. -/
def headerOfMasks (b0 b1 b2 b3 b4 b5 : Byte) : PrimaryHeader where
  version := b0.toNat >>> 5
  packetType := .ofCode ((b0.toNat >>> 4) &&& 1)
  secHeaderFlag := .ofCode ((b0.toNat >>> 3) &&& 1)
  appProcId := (b0.toNat &&& 0x07) <<< 8 ||| b1.toNat
  sequenceFlags := .ofCode (b2.toNat >>> 6)
  sequenceCount := (b2.toNat &&& 0x3F) <<< 8 ||| b3.toNat
  dataLength := b4.toNat <<< 8 ||| b5.toNat

/-- HDR_DECODE as a function of its operand (R101). -/
def headerDecode (buf : List Byte) : OpResult (PrimaryHeader × List Byte) :=
  if buf.length < Config.hdrOctets then .raise .insufficientData
  else .done (headerOfOctets buf, buf.drop Config.hdrOctets)

/-- `v[hi:lo]` of an integer (R7). -/
def slice (v hi lo : Nat) : Nat := (v >>> lo) % 2 ^ (hi - lo + 1)

/-- The six octets of a header whose fields are inside their ranges (R51, R104). -/
def octetsOfHeader (h : PrimaryHeader) : List Byte :=
  [ BitVec.ofNat 8 (h.version <<< 5 ||| h.packetType.code <<< 4 ||| h.secHeaderFlag.code <<< 3 ||| slice h.appProcId 10 8),
    BitVec.ofNat 8 (slice h.appProcId 7 0),
    BitVec.ofNat 8 (h.sequenceFlags.code <<< 6 ||| slice h.sequenceCount 13 8),
    BitVec.ofNat 8 (slice h.sequenceCount 7 0),
    BitVec.ofNat 8 (slice h.dataLength 15 8),
    BitVec.ofNat 8 (slice h.dataLength 7 0) ]

/-- The bytes that seven PUTs of the fields in wire order produce from empty written bits (R35, R54): the other derivation of
R54. That it agrees with `octetsOfHeader` is `octetsOfPuts_eq_octetsOfHeader` of Laws/HeaderCodec.lean. -/
def octetsOfPuts (h : PrimaryHeader) : List Byte :=
  packBytes (valueBits h.version 3 ++ valueBits h.packetType.code 1 ++ valueBits h.secHeaderFlag.code 1 ++
    valueBits h.appProcId 11 ++ valueBits h.sequenceFlags.code 2 ++ valueBits h.sequenceCount 14 ++ valueBits h.dataLength 16)

/-- HDR_ENCODE as a function of its operand (R104): the four ranges are checked before any octet is formed (R105). -/
def headerEncode (h : RawHeader) : OpResult (List Byte) :=
  if fits h.version 3 && fits h.appProcId 11 && fits h.sequenceCount 14 && fits h.dataLength 16 then .done (octetsOfHeader h)
  else .raise .fieldOverflow

/-- `HDR_DECODE buf` (R101). -/
def execHdrDecode (buf : List Byte) (s : State) : Host.Outcome State Fault Refusal :=
  withinMaxBuf s buf (finish s (fun r => .header r.1 r.2) (headerDecode buf))

/-- `HDR_ENCODE h` (R104). -/
def execHdrEncode (h : RawHeader) (s : State) : Host.Outcome State Fault Refusal :=
  finishBuffer s (headerEncode h)

end Sys2Proof.Machine
end

