-- ==== Sys2Proof/Machine/HostActions.lean ====
section
/-! DEFINITION. The host actions on the cursor state: RD_LOAD, WR_CLEAR, WR_READ (R183 to R185). -/

namespace Sys2Proof.Machine

/-- `RD_LOAD buf` (R183). -/
def execRdLoad (buf : List Byte) (s : State) : Host.Outcome State Fault Refusal :=
  withinMaxBuf s buf (complete { s with rbuf := buf, rpos := 0 } .nothing)

/-- `WR_CLEAR` (R184). -/
def execWrClear (s : State) : Host.Outcome State Fault Refusal :=
  complete { s with wbits := [] } .nothing

/-- `WR_READ` (R185). -/
def execWrRead (s : State) : Host.Outcome State Fault Refusal :=
  if s.wbits.length % 8 = 0 then complete s (.bytes (packBytes s.wbits)) else .refused .writtenBitsNotWholeOctets

end Sys2Proof.Machine
end

