-- ==== Sys2Proof/Machine/Marshaller.lean ====
section
/-! DEFINITION. The frame marshaller: PKT_PARSE, PKT_BUILD, PKT_TO_BYTES (R120 to R132), functions of their operands and of
the capability. -/

namespace Sys2Proof.Machine

/-- The part of PKT_PARSE after the length check: the secondary header, if the flag announces one (R121, R123). -/
def packetOfDataField (cap : Cap) (h : PrimaryHeader) (rest : List Byte) : OpResult SpacePacket :=
  match h.secHeaderFlag with
  | .notPresent => .done ⟨h, none, rest⟩
  | .present =>
    match cap.shDecode rest with
    | .short => .raise .truncatedPacket
    | .fail e => .raise (.secondaryHeaderDecodeFailed e)
    | .ok sh k => if rest.length < k then .raise .truncatedPacket else .done ⟨h, some sh, rest.drop k⟩

/-- PKT_PARSE as a function of its operand and the capability (R121); the order of the tests is that of R160. -/
def packetParse (cap : Cap) (buf : List Byte) : OpResult SpacePacket :=
  match headerDecode buf with
  | .raise e => .raise e
  | .refuse r => .refuse r
  | .done (h, rest) =>
    if rest.length < h.dataLength + 1 then .raise .truncatedPacket
    else if h.dataLength + 1 < rest.length then .refuse .bufferLongerThanPacket
    else packetOfDataField cap h rest

/-- PKT_BUILD as a function of its operands and the capability (R126); the order of the tests is that of R160. -/
def packetBuild (cap : Cap) (apid : Nat) (ptype : PacketType) (sflags : SequenceFlags) (scount : Nat)
    (sh : Option SecHeader) (payload : List Byte) : OpResult SpacePacket :=
  if 2047 < apid ∨ 16383 < scount then .raise .fieldOutOfRange
  else
    let total := cap.lengthOf sh + payload.length
    if total = 0 then .raise .emptyDataField
    else if Config.dataFieldMax < total then .raise .payloadTooLarge
    else
      .done {
        header := {
          version := Config.buildVersion
          packetType := ptype
          secHeaderFlag := .ofOption sh
          appProcId := apid
          sequenceFlags := sflags
          sequenceCount := scount
          dataLength := total - 1 }
        secondary := sh
        payload := payload }

/-- PKT_TO_BYTES as a function of its operand and the capability (R129); a record that breaks the packet invariants is
treated the same way (R131). -/
def packetToBytes (cap : Cap) (p : SpacePacket) : OpResult (List Byte) :=
  match headerEncode p.header with
  | .done hb => .done (hb ++ cap.octetsOf p.secondary ++ p.payload)
  | .raise e => .raise e
  | .refuse r => .refuse r

/-- `PKT_PARSE buf` (R121). -/
def execPktParse (buf : List Byte) (s : State) : Host.Outcome State Fault Refusal :=
  withinMaxBuf s buf (finish s .packet (packetParse s.cfg.cap buf))

/-- `PKT_BUILD apid, ptype, sflags, scount, sh, payload` (R126); the payload is a buffer the host presents, so MAX_BUF bounds it
(R44, R127). Log entry 12. -/
def execPktBuild (apid : Nat) (ptype : PacketType) (sflags : SequenceFlags) (scount : Nat) (sh : Option SecHeader)
    (payload : List Byte) (s : State) : Host.Outcome State Fault Refusal :=
  withinMaxBuf s payload (finish s .packet (packetBuild s.cfg.cap apid ptype sflags scount sh payload))

/-- `PKT_TO_BYTES p` (R129); MAX_BUF bounds the payload presented (R44) and the result buffer (R30). Log entry 12. -/
def execPktToBytes (p : SpacePacket) (s : State) : Host.Outcome State Fault Refusal :=
  withinMaxBuf s p.payload (finishBuffer s (packetToBytes s.cfg.cap p))

end Sys2Proof.Machine
end

