-- ==== Sys2Proof/Machine/NoOperation.lean ====
section
/-! DEFINITION. The rows of opcode_table.json that are no operation: the reserved select codes (R67) and the header data
format (R50). -/

namespace Sys2Proof.Machine

/-- `op = 0x0` selects no operation and is refused (R67, U7). -/
def execReserved0 (_s : State) : Host.Outcome State Fault Refusal := .refused .reservedOpCode

/-- `op = 0xD` selects no operation and is refused (R67, U7). -/
def execReservedD (_s : State) : Host.Outcome State Fault Refusal := .refused .reservedOpCode

/-- `op = 0xE` selects no operation and is refused (R67, U7). -/
def execReservedE (_s : State) : Host.Outcome State Fault Refusal := .refused .reservedOpCode

/-- `op = 0xF` selects no operation and is refused (R67, U7). -/
def execReservedF (_s : State) : Host.Outcome State Fault Refusal := .refused .reservedOpCode

/-- A header word is "not an operation: the data format HDR_DECODE reads and HDR_ENCODE writes" (opcode_table.json, R50).
Its meaning as data is `headerOfWord` and `wordOfHeader`. Log entry 6. -/
def execPrimaryHeader (_h : PrimaryHeader) (_s : State) : Host.Outcome State Fault Refusal :=
  .refused .dataFormatIsNoOperation

end Sys2Proof.Machine
end

