-- ==== Sys2Proof/Machine/Dispatch.lean ====
section
/-! DEFINITION. One arm for each row of opcode_table.json. -/

namespace Sys2Proof.Machine

/-- The meaning of an instruction, performed whole or not at all (R37). -/
def exec (i : Instr) (s : State) : Host.Outcome State Fault Refusal :=
  match i with
  | .take n => Sys2Proof.Machine.execTake n s
  | .put value n => Sys2Proof.Machine.execPut value n s
  | .bytePosition => Sys2Proof.Machine.execBytePosition s
  | .remainingBytes => Sys2Proof.Machine.execRemainingBytes s
  | .hdrDecode buf => Sys2Proof.Machine.execHdrDecode buf s
  | .hdrEncode h => Sys2Proof.Machine.execHdrEncode h s
  | .pktParse buf => Sys2Proof.Machine.execPktParse buf s
  | .pktBuild apid ptype sflags scount sh payload => Sys2Proof.Machine.execPktBuild apid ptype sflags scount sh payload s
  | .pktToBytes p => Sys2Proof.Machine.execPktToBytes p s
  | .rdLoad buf => Sys2Proof.Machine.execRdLoad buf s
  | .wrClear => Sys2Proof.Machine.execWrClear s
  | .wrRead => Sys2Proof.Machine.execWrRead s
  | .reserved0 => Sys2Proof.Machine.execReserved0 s
  | .reservedD => Sys2Proof.Machine.execReservedD s
  | .reservedE => Sys2Proof.Machine.execReservedE s
  | .reservedF => Sys2Proof.Machine.execReservedF s
  | .primaryHeader h => Sys2Proof.Machine.execPrimaryHeader h s

end Sys2Proof.Machine
end

