-- ==== Sys2Proof/Machine/Step.lean ====
section
/-! DEFINITION. One step: the block takes the next thing the host does and performs it whole (R40, R65, R193). -/

namespace Sys2Proof.Machine

/-- One step. A request is decoded and performed; a reset clears the cursors (R180); with nothing issued the state stays
(log entry 4). -/
def step (s : State) : Host.Outcome State Fault Refusal :=
  match s.inputs with
  | [] => .next s
  | .reset :: rest => .next { s with inputs := rest }.cleared
  | .request r :: rest => exec (decode r) { s with inputs := rest }

/-- The state in which the host issues next the request that `nbits` table bits of value `w` make, every operand bit zero
(log entry 4). Bits of no format issue nothing. -/
def State.withFetchWord (s : State) (nbits w : Nat) : State :=
  match SelectWord.ofBits nbits w with
  | .ok sw => { s with inputs := .request ⟨sw, Operands.zero⟩ :: s.inputs }
  | .error _ => s

end Sys2Proof.Machine
end

