-- ==== Sys2Proof/Safety.lean ====
section
/-! DEFINITION. The terms claims are stated in: the invariant of the cursors, what a valid response is, the capability laws
(R21), which operation may raise what (R166), where the spec refuses (93_implementation_defined.md), and runs of operations. -/

namespace Sys2Proof

/-- Laws 1 and 2 of R21 for one secondary header. -/
def Cap.EncodeLaws (cap : Cap) (sh : SecHeader) : Prop :=
  cap.shLength sh = (cap.shEncode sh).length ∧
    ∀ t, cap.shDecode (cap.shEncode sh ++ t) = .ok sh (cap.shEncode sh).length

/-- Law 3 of R21. -/
def Cap.LengthLaw (cap : Cap) : Prop :=
  ∀ x sh k, cap.shDecode x = .ok sh k → k ≤ x.length ∧ cap.shLength sh = k

end Sys2Proof

namespace Sys2Proof.Machine

/-- The cursors inside their bounds: `len(RBUF) ≤ MAX_BUF` (R11), `RPOS ≤ 8*len(RBUF)` (R12), `WLEN ≤ 8*MAX_BUF` (R13). -/
abbrev State.Inv (s : State) : Prop :=
  s.rbuf.length ≤ s.cfg.maxBuf ∧ s.rpos ≤ 8 * s.rbuf.length ∧ s.wbits.length ≤ 8 * s.cfg.maxBuf

/-- Every buffer holds at most MAX_BUF octets (R30): the read buffer, the written bits, and what a response hands over (a result
buffer, octets passed on, a packet's payload). -/
def State.BuffersWithinMaxBuf (s : State) : Prop :=
  s.rbuf.length ≤ s.cfg.maxBuf ∧ s.wbits.length ≤ 8 * s.cfg.maxBuf ∧
    match s.response with
    | some (.ok (.bytes bs)) => bs.length ≤ s.cfg.maxBuf
    | some (.ok (.header _ rest)) => rest.length ≤ s.cfg.maxBuf
    | some (.ok (.packet p)) => p.payload.length ≤ s.cfg.maxBuf
    | _ => True

/-- A returned header is valid (R102); a returned packet has a valid header and its secondary header exactly when the flag
says so, and meets the length invariant when the capability obeys law 3 (R16). -/
def State.ResponseValid (s : State) : Prop :=
  match s.response with
  | some (.ok (.header h _)) => h.valid = true
  | some (.ok (.packet p)) =>
      p.header.valid = true ∧ p.header.secHeaderFlag = .ofOption p.secondary ∧
        (s.cfg.cap.LengthLaw → p.header.dataLength + 1 = s.cfg.cap.lengthOf p.secondary + p.payload.length)
  | _ => True

/-- The table of R166. -/
def mayRaise : Instr → SphcError → Bool
  | .take _, .insufficientData => true
  | .put _ _, .fieldOverflow => true
  | .hdrDecode _, .insufficientData => true
  | .hdrEncode _, .fieldOverflow => true
  | .pktParse _, .insufficientData => true
  | .pktParse _, .truncatedPacket => true
  | .pktParse _, .secondaryHeaderDecodeFailed _ => true
  | .pktBuild _ _ _ _ _ _, .fieldOutOfRange => true
  | .pktBuild _ _ _ _ _ _, .payloadTooLarge => true
  | .pktBuild _ _ _ _ _ _, .emptyDataField => true
  | .pktToBytes _, .fieldOverflow => true
  | _, _ => false

/-- The five operations that "neither read nor write RBUF, RPOS or WBITS" (R10). -/
def isCodecOperation : Instr → Bool
  | .hdrDecode _ => true
  | .hdrEncode _ => true
  | .pktParse _ => true
  | .pktBuild _ _ _ _ _ _ => true
  | .pktToBytes _ => true
  | _ => false

/-- The operations R37 calls idempotent. -/
def isIdempotent : Instr → Bool
  | .bytePosition => true
  | .remainingBytes => true
  | .wrRead => true
  | i => isCodecOperation i

/-- The octets a whole packet has by octets 4 and 5 of its buffer: `6 + data_length + 1` (R38, R60). -/
def declaredOctets (buf : List Byte) : Nat := 6 + (256 * (buf.getD 4 0#8).toNat + (buf.getD 5 0#8).toNat) + 1

/-- Every `refuse` of the spec, by its entry in 93_implementation_defined.md. Where the spec leaves room, the entries are the
model's reading: which sequences MAX_BUF bounds and in which order (log entry 12), a PUT that neither fits nor has room (log
entry 14), a header word issued as a request (log entry 6). -/
def specRefusal (s : State) : Instr → Option Refusal
  | .take n => if n < 1 ∨ 16 < n then some .badBitCount else none
  | .put value n =>
      if n < 1 ∨ 16 < n then some .badBitCount
      else if value < 2 ^ n ∧ 8 * s.cfg.maxBuf < s.wbits.length + n then some .writeBufferFull
      else none
  | .bytePosition => if s.rpos % 8 ≠ 0 then some .readCursorNotByteAligned else none
  | .remainingBytes => if s.rpos % 8 ≠ 0 then some .readCursorNotByteAligned else none
  | .hdrDecode buf => if s.cfg.maxBuf < buf.length then some .bufferLongerThanMaxBuf else none
  | .hdrEncode h => if h.valid = true ∧ s.cfg.maxBuf < 6 then some .resultLongerThanMaxBuf else none
  | .pktParse buf =>
      if s.cfg.maxBuf < buf.length then some .bufferLongerThanMaxBuf
      else if declaredOctets buf < buf.length then some .bufferLongerThanPacket
      else none
  | .pktBuild _ _ _ _ _ payload => if s.cfg.maxBuf < payload.length then some .bufferLongerThanMaxBuf else none
  | .pktToBytes p =>
      if s.cfg.maxBuf < p.payload.length then some .bufferLongerThanMaxBuf
      else if p.header.valid = true ∧ s.cfg.maxBuf < 6 + (s.cfg.cap.octetsOf p.secondary).length + p.payload.length then
        some .resultLongerThanMaxBuf
      else none
  | .rdLoad buf => if s.cfg.maxBuf < buf.length then some .bufferLongerThanMaxBuf else none
  | .wrClear => none
  | .wrRead => if s.wbits.length % 8 ≠ 0 then some .writtenBitsNotWholeOctets else none
  | .reserved0 => some .reservedOpCode
  | .reservedD => some .reservedOpCode
  | .reservedE => some .reservedOpCode
  | .reservedF => some .reservedOpCode
  | .primaryHeader _ => some .dataFormatIsNoOperation

/-- The host issues operations one after the other (R40, R193): their responses in order and the state they leave, or
nothing if one is refused. -/
def execAll : List Instr → State → Option (List Response × State)
  | [], s => some ([], s)
  | i :: is, s =>
    match exec i s with
    | .next t => (execAll is t).map fun r => (t.response.toList ++ r.1, r.2)
    | .fault _ => none
    | .refused _ => none

end Sys2Proof.Machine
end

