-- ==== Sys2Proof/Certificates/Slice0/Obligations.lean ====
section
/-! DEFINITION. The statements for the provers. -/

open Sys2Proof Sys2Proof.Machine

/-! ## The machine -/

/-- R40, R65, R193: a step takes the next thing the host does and performs it whole. Where it is the request of a well-formed
instruction, the step is `exec` of that instruction in the state with the request taken. With nothing issued the state
stays (the model's choice, log entry 4). -/
def Obligations.StepPerformsTheNextRequest : Prop :=
  (∀ (s : State) (r : Request) (rest : List HostInput), s.inputs = .request r :: rest →
      step s = exec (decode r) { s with inputs := rest }) ∧
    (∀ (s : State) (i : Instr) (rest : List HostInput), i.WellFormed → s.inputs = .request (encode i) :: rest →
      step s = exec i { s with inputs := rest }) ∧
    (∀ s : State, s.inputs = [] → step s = .next s)

/-- R180, R22 (the spec's decision D5): a reset empties both cursors and keeps the configuration, in every state; TAKE before
any RD_LOAD then fails with `InsufficientData` and WR_READ returns `[]`; and the reset state has those values. That a reset
also takes the response away (here and in the reset state) is the model's choice, log entry 5; that it takes one input and
leaves the later ones is the model's, log entries 4 and 13. -/
def Obligations.ResetEmptiesTheCursors : Prop :=
  (∀ (s : State) (rest : List HostInput), s.inputs = .reset :: rest →
      ∃ t, step s = .next t ∧ t = { s with rbuf := [], rpos := 0, wbits := [], response := none, inputs := rest } ∧
        (∀ n, 1 ≤ n → n ≤ 16 → exec (.take n) t = .next { t with response := some (.error .insufficientData) }) ∧
        exec .wrRead t = .next { t with response := some (.ok (.bytes [])) }) ∧
    State.reset.rbuf = [] ∧ State.reset.rpos = 0 ∧ State.reset.wbits = [] ∧ State.reset.response = none

/-- R158: an error is the status of the response and nothing else is written; nothing ever stops the block with a fault. -/
def Obligations.ErrorsWriteNoState : Prop :=
  (∀ (i : Instr) (s t : State) (e : SphcError), exec i s = .next t → t.response = some (.error e) →
      t = { s with response := some (.error e) }) ∧
    ∀ (i : Instr) (s : State) (f : Fault), exec i s ≠ .fault f

/-- R150, with the matrix of R166: the numeric status codes; an error comes only from an operation the matrix lists it for; and
every "yes" of the matrix happens. -/
def Obligations.ErrorsComeFromTheirOperations : Prop :=
  (∀ r, (Response.ok r).status = 0) ∧
    SphcError.insufficientData.code = 1 ∧ SphcError.fieldOutOfRange.code = 2 ∧ SphcError.fieldOverflow.code = 3 ∧
    SphcError.truncatedPacket.code = 4 ∧ (∀ e, (SphcError.secondaryHeaderDecodeFailed e).code = 5) ∧
    SphcError.payloadTooLarge.code = 6 ∧ SphcError.emptyDataField.code = 7 ∧
    (∀ e : SphcError, (Response.error e).status = e.code) ∧
    (∀ (i : Instr) (s t : State) (e : SphcError), exec i s = .next t → t.response = some (.error e) → mayRaise i e = true) ∧
    (∃ n s t, exec (.take n) s = .next t ∧ t.response = some (.error .insufficientData)) ∧
    (∃ v n s t, exec (.put v n) s = .next t ∧ t.response = some (.error .fieldOverflow)) ∧
    (∃ buf s t, exec (.hdrDecode buf) s = .next t ∧ t.response = some (.error .insufficientData)) ∧
    (∃ h s t, exec (.hdrEncode h) s = .next t ∧ t.response = some (.error .fieldOverflow)) ∧
    (∃ buf s t, exec (.pktParse buf) s = .next t ∧ t.response = some (.error .insufficientData)) ∧
    (∃ buf s t, exec (.pktParse buf) s = .next t ∧ t.response = some (.error .truncatedPacket)) ∧
    (∀ e, ∃ buf s t, exec (.pktParse buf) s = .next t ∧ t.response = some (.error (.secondaryHeaderDecodeFailed e))) ∧
    (∃ p s t, exec (.pktToBytes p) s = .next t ∧ t.response = some (.error .fieldOverflow)) ∧
    ∀ e, e = SphcError.fieldOutOfRange ∨ e = SphcError.payloadTooLarge ∨ e = SphcError.emptyDataField →
      ∃ apid ptype sflags scount sh payload s t,
        exec (.pktBuild apid ptype sflags scount sh payload) s = .next t ∧ t.response = some (.error e)

/-- The cursors stay inside their bounds (R11, R12, R13) in every step from a state in which they are. -/
def Obligations.StepKeepsTheCursorBounds : Prop :=
  ∀ s t : State, s.Inv → step s = .next t → t.Inv

/-- The reset state has its cursors inside their bounds. -/
def Obligations.ResetIsInsideTheCursorBounds : Prop :=
  State.reset.Inv ∧ State.reset.ResponseValid ∧ State.reset.BuffersWithinMaxBuf

/-- 20_memory.md R30, "Every buffer holds at most MAX_BUF octets": every step keeps the read buffer, the written bits and what a
response hands over (a result buffer, octets passed on, a payload) within MAX_BUF. That MAX_BUF bounds a payload presented
and a result is the model's reading, log entry 12. -/
def Obligations.StepKeepsBuffersWithinMaxBuf : Prop :=
  ∀ s t : State, s.BuffersWithinMaxBuf → step s = .next t → t.BuffersWithinMaxBuf

/-- 20_memory.md R44 and R30 (U8 of 93_implementation_defined.md): an operation the host presents a buffer longer than MAX_BUF
to is refused, whatever its other operands are; and so is HDR_ENCODE or PKT_TO_BYTES, where it raises nothing, if its result
buffer would be longer. That a payload is such a buffer, that this test is the first, and that the result's test is the last,
is the model's reading, log entry 12. -/
def Obligations.BuffersBeyondMaxBufAreRefused : Prop :=
  (∀ (buf : List Byte) (s : State), s.cfg.maxBuf < buf.length →
      exec (.hdrDecode buf) s = .refused .bufferLongerThanMaxBuf ∧
      exec (.pktParse buf) s = .refused .bufferLongerThanMaxBuf ∧
      exec (.rdLoad buf) s = .refused .bufferLongerThanMaxBuf ∧
      (∀ apid ptype sflags scount sh,
        exec (.pktBuild apid ptype sflags scount sh buf) s = .refused .bufferLongerThanMaxBuf) ∧
      ∀ h sh, exec (.pktToBytes ⟨h, sh, buf⟩) s = .refused .bufferLongerThanMaxBuf) ∧
    (∀ (h : RawHeader) (s : State), h.valid = true → s.cfg.maxBuf < 6 →
      exec (.hdrEncode h) s = .refused .resultLongerThanMaxBuf) ∧
    ∀ (p : SpacePacket) (s : State), p.header.valid = true → p.payload.length ≤ s.cfg.maxBuf →
      s.cfg.maxBuf < 6 + (s.cfg.cap.octetsOf p.secondary).length + p.payload.length →
      exec (.pktToBytes p) s = .refused .resultLongerThanMaxBuf

/-- R16, R102: every step leaves a valid response: a returned header is in range; a returned packet has a valid header, a
secondary header exactly when the flag is `Present`, and under law 3 of R21 the length invariant. -/
def Obligations.StepKeepsResponsesValid : Prop :=
  ∀ s t : State, s.ResponseValid → step s = .next t → t.ResponseValid

/-- R20, R18: no step changes the configuration, neither an operation nor a reset. -/
def Obligations.StepKeepsTheConfiguration : Prop :=
  ∀ s t : State, step s = .next t → t.cfg = s.cfg

/-- R10: the five codec operations neither read nor write the cursors: in two states with the same configuration they end the
same way, and a next state differs from the one before in its response alone. -/
def Obligations.CodecOperationsIgnoreTheCursors : Prop :=
  ∀ (i : Instr) (s t : State), isCodecOperation i = true → s.cfg = t.cfg →
    (∀ s', exec i s = .next s' → s' = { s with response := s'.response } ∧ exec i t = .next { t with response := s'.response }) ∧
      (∀ r, exec i s = .refused r → exec i t = .refused r)

/-- R19: no hidden state. An operation's result (its response, or the refusal) depends on its operands, on the configuration
(the capability, and MAX_BUF) and, for the four cursor operations and the three host actions only, on the cursors. -/
def Obligations.NoHiddenState : Prop :=
  ∀ (i : Instr) (s t : State), s.cfg = t.cfg →
    (isCodecOperation i = true ∨ (s.rbuf = t.rbuf ∧ s.rpos = t.rpos ∧ s.wbits = t.wbits)) →
    (∀ s', exec i s = .next s' → ∃ t', exec i t = .next t' ∧ t'.response = s'.response) ∧
      (∀ r, exec i s = .refused r → exec i t = .refused r)

/-- R37, with R11, R12 and R13: an operation that raises changes nothing; the only operations with an effect on the cursors are TAKE (advances RPOS), PUT (appends to
WBITS), RD_LOAD and WR_CLEAR; a written bit never changes but by WR_CLEAR; the idempotent operations give the same again; a
TAKE or PUT that succeeds is not idempotent. -/
def Obligations.OnlyFourOperationsWriteTheCursors : Prop :=
  (∀ (i : Instr) (s t : State), exec i s = .next t →
      t.cfg = s.cfg ∧ t.inputs = s.inputs ∧
        ((∀ buf, i ≠ .rdLoad buf) → t.rbuf = s.rbuf ∧ s.rpos ≤ t.rpos) ∧
        ((∀ buf, i ≠ .rdLoad buf) → (∀ n, i ≠ .take n) → t.rpos = s.rpos) ∧
        (i ≠ .wrClear → s.wbits <+: t.wbits) ∧
        (i ≠ .wrClear → (∀ v n, i ≠ .put v n) → t.wbits = s.wbits) ∧
        (∀ e, t.response = some (.error e) → t = { s with response := some (.error e) })) ∧
    (∀ (i : Instr) (s t : State), isIdempotent i = true → exec i s = .next t →
      exec i t = .next t ∧ t = { s with response := t.response }) ∧
    (∀ (n : Nat) (s t : State) (r : Result), exec (.take n) s = .next t → t.response = some (.ok r) → t.rpos ≠ s.rpos) ∧
    ∀ (v n : Nat) (s t : State) (r : Result), exec (.put v n) s = .next t → t.response = some (.ok r) → t.wbits ≠ s.wbits

/-- Where an operation completes: every instruction answers a next state with a response, except exactly where the spec
refuses (93_implementation_defined.md U1 to U4, U7, U8), and it is refused there by that name. Three of its entries are the
model's reading of the spec: the data format, log entry 6; which buffers MAX_BUF bounds and in which order, log entry 12; a
PUT that neither fits nor has room raises the error, log entry 14. -/
def Obligations.EveryOperationCompletesUnlessTheSpecRefuses : Prop :=
  ∀ (i : Instr) (s : State),
    (∀ r, exec i s = .refused r ↔ specRefusal s i = some r) ∧
      ((∃ t, exec i s = .next t ∧ t.response.isSome = true) ↔ specRefusal s i = none)

/-! ## The Bit Cursor -/

/-- R82, with the refusal of R84: the whole meaning of TAKE. The clauses on a bad `n` and on RPOS after an error are the
spec's own decisions D7 and D6. The value is the sum of R34 over the stream bits of R7. -/
def Obligations.TakeReadsTheNextBits : Prop :=
  (∀ o : Operands, decode ⟨.op4 0x1#4, o⟩ = .take o.n) ∧
    (∀ (n : Nat) (s : State), n < 1 ∨ 16 < n → exec (.take n) s = .refused .badBitCount) ∧
    (∀ (n : Nat) (s : State), 1 ≤ n → n ≤ 16 → 8 * s.rbuf.length < s.rpos + n →
      exec (.take n) s = .next { s with response := some (.error .insufficientData) }) ∧
    ∀ (n : Nat) (s : State), 1 ≤ n → n ≤ 16 → s.rpos + n ≤ 8 * s.rbuf.length →
      ∃ v, exec (.take n) s = .next { s with rpos := s.rpos + n, response := some (.ok (.int v)) } ∧ v < 2 ^ n ∧
        v = ∑ k ∈ Finset.range n,
          ((s.rbuf.getD ((s.rpos + k) / 8) 0#8).getLsbD (7 - (s.rpos + k) % 8)).toNat * 2 ^ (n - 1 - k)

/-- R85, with the refusal of R84: the whole meaning of PUT while the written bits have room (R86; without room:
`PutWithoutRoom`). The clauses on a bad `n` and on WBITS after an error are the spec's own decisions D7 and D6. -/
def Obligations.PutAppendsTheValueBits : Prop :=
  (∀ o : Operands, decode ⟨.op4 0x2#4, o⟩ = .put o.value o.n) ∧
    (∀ (value n : Nat) (s : State), n < 1 ∨ 16 < n → exec (.put value n) s = .refused .badBitCount) ∧
    (∀ (value n : Nat) (s : State), 1 ≤ n → n ≤ 16 → 2 ^ n ≤ value → s.wbits.length + n ≤ 8 * s.cfg.maxBuf →
      exec (.put value n) s = .next { s with response := some (.error .fieldOverflow) }) ∧
    ∀ (value n : Nat) (s : State), 1 ≤ n → n ≤ 16 → value < 2 ^ n → s.wbits.length + n ≤ 8 * s.cfg.maxBuf →
      exec (.put value n) s =
        .next { s with
          wbits := s.wbits ++ (List.range n).map fun k => value.testBit (n - 1 - k)
          response := some (.ok .nothing) }

/-- 40_bit_cursor.md R86, last point: without room for its bits a PUT that fits is refused. That one that does not fit raises
`FieldOverflow` there too, as R85 says without reference to the room, is the model's choice, log entry 14. -/
def Obligations.PutWithoutRoom : Prop :=
  ∀ (value n : Nat) (s : State), 1 ≤ n → n ≤ 16 → 8 * s.cfg.maxBuf < s.wbits.length + n →
    (value < 2 ^ n → exec (.put value n) s = .refused .writeBufferFull) ∧
      (2 ^ n ≤ value → exec (.put value n) s = .next { s with response := some (.error .fieldOverflow) })

/-- R88, with the refusal of R90 (the spec's decision D9). -/
def Obligations.BytePositionCountsWholeOctets : Prop :=
  (∀ o : Operands, decode ⟨.op4 0x3#4, o⟩ = .bytePosition) ∧
    (∀ s : State, s.rpos % 8 ≠ 0 → exec .bytePosition s = .refused .readCursorNotByteAligned) ∧
    (∀ s : State, s.rpos % 8 = 0 → exec .bytePosition s = .next { s with response := some (.ok (.int (s.rpos / 8))) }) ∧
    ∀ s : State, s.Inv → s.rpos % 8 = 0 → s.rpos / 8 ≤ s.rbuf.length

/-- R89, with the refusal of R90 (the spec's decision D9): the octets, not their count (C6), and RPOS stays. -/
def Obligations.RemainingBytesHandsOffTheRest : Prop :=
  (∀ o : Operands, decode ⟨.op4 0x4#4, o⟩ = .remainingBytes) ∧
    (∀ s : State, s.rpos % 8 ≠ 0 → exec .remainingBytes s = .refused .readCursorNotByteAligned) ∧
    ∀ s : State, s.rpos % 8 = 0 →
      ∃ rest, exec .remainingBytes s = .next { s with response := some (.ok (.bytes rest)) } ∧
        rest = s.rbuf.drop (s.rpos / 8) ∧ rest.length = s.rbuf.length - s.rpos / 8

/-- 40_bit_cursor.md R83 (derived there): two TAKEs equal one. -/
def Obligations.TwoTakesEqualOne : Prop :=
  ∀ (s : State) (a b : Nat), 1 ≤ a → 1 ≤ b → a + b ≤ 16 → s.rpos + a + b ≤ 8 * s.rbuf.length →
    ∃ x y t, exec (.take a) s = .next t ∧ t = { s with rpos := s.rpos + a, response := some (.ok (.int x)) } ∧
      exec (.take b) t = .next { s with rpos := s.rpos + a + b, response := some (.ok (.int y)) } ∧
      exec (.take (a + b)) s = .next { s with rpos := s.rpos + a + b, response := some (.ok (.int (x * 2 ^ b + y))) }

/-- 40_bit_cursor.md R86 (derived there): two PUTs append the bits of both values, and one PUT of the joined value appends the
same. -/
def Obligations.TwoPutsEqualOne : Prop :=
  ∀ (s : State) (x a y b : Nat), 1 ≤ a → 1 ≤ b → a + b ≤ 16 → x < 2 ^ a → y < 2 ^ b →
    s.wbits.length + a + b ≤ 8 * s.cfg.maxBuf →
    ∃ t u : State,
      t = { s with
        wbits := s.wbits ++ (List.range a).map fun k => x.testBit (a - 1 - k)
        response := some (.ok .nothing) } ∧
      u = { s with
        wbits := s.wbits ++ ((List.range a).map fun k => x.testBit (a - 1 - k)) ++
          (List.range b).map fun k => y.testBit (b - 1 - k)
        response := some (.ok .nothing) } ∧
      exec (.put x a) s = .next t ∧ exec (.put y b) t = .next u ∧ exec (.put (x * 2 ^ b + y) (a + b)) s = .next u

/-- 40_bit_cursor.md R87 (derived there): TAKE undoes PUT. -/
def Obligations.TakeUndoesPut : Prop :=
  ∀ (fields : List (Nat × Nat)) (s : State), (∀ f ∈ fields, 1 ≤ f.2 ∧ f.2 ≤ 16 ∧ f.1 < 2 ^ f.2) →
    (fields.map Prod.snd).sum % 8 = 0 → (fields.map Prod.snd).sum ≤ 8 * s.cfg.maxBuf → s.wbits = [] →
    ∃ bs t u,
      execAll (fields.map (fun f => .put f.1 f.2) ++ [.wrRead]) s =
        some (fields.map (fun _ => .ok .nothing) ++ [.ok (.bytes bs)], t) ∧
      execAll (.rdLoad bs :: fields.map fun f => .take f.2) t =
        some (.ok .nothing :: fields.map (fun f => .ok (.int f.1)), u) ∧
      u.rpos = 8 * u.rbuf.length

/-! ## The Primary Header Codec -/

/-- R101, R52 and R54: the whole meaning of HDR_DECODE. The fields are the mask-and-shift lines of R52, and those equal the
stream-bit reads of R34. -/
def Obligations.HdrDecodeReadsTheSevenFields : Prop :=
  (∀ o : Operands, decode ⟨.op4 0x5#4, o⟩ = .hdrDecode o.buf) ∧
    (∀ (buf : List Byte) (s : State), buf.length < 6 → buf.length ≤ s.cfg.maxBuf →
      exec (.hdrDecode buf) s = .next { s with response := some (.error .insufficientData) }) ∧
    ∀ (b0 b1 b2 b3 b4 b5 : Byte) (rest : List Byte) (s : State), 6 + rest.length ≤ s.cfg.maxBuf →
      ∃ h : PrimaryHeader,
        exec (.hdrDecode (b0 :: b1 :: b2 :: b3 :: b4 :: b5 :: rest)) s =
          .next { s with response := some (.ok (.header h rest)) } ∧
        h = { version := b0.toNat >>> 5
              packetType := .ofCode ((b0.toNat >>> 4) &&& 1)
              secHeaderFlag := .ofCode ((b0.toNat >>> 3) &&& 1)
              appProcId := (b0.toNat &&& 0x07) <<< 8 ||| b1.toNat
              sequenceFlags := .ofCode (b2.toNat >>> 6)
              sequenceCount := (b2.toNat &&& 0x3F) <<< 8 ||| b3.toNat
              dataLength := b4.toNat <<< 8 ||| b5.toNat } ∧
        h = { version := bitsOf [b0, b1, b2, b3, b4, b5] 0 3
              packetType := .ofCode (bitsOf [b0, b1, b2, b3, b4, b5] 3 1)
              secHeaderFlag := .ofCode (bitsOf [b0, b1, b2, b3, b4, b5] 4 1)
              appProcId := bitsOf [b0, b1, b2, b3, b4, b5] 5 11
              sequenceFlags := .ofCode (bitsOf [b0, b1, b2, b3, b4, b5] 16 2)
              sequenceCount := bitsOf [b0, b1, b2, b3, b4, b5] 18 14
              dataLength := bitsOf [b0, b1, b2, b3, b4, b5] 32 16 }

/-- R104: the whole meaning of HDR_ENCODE, octet by octet, where MAX_BUF admits its result of six octets (R30, log entry 12;
beyond: `BuffersBeyondMaxBufAreRefused`). -/
def Obligations.HdrEncodeFormsTheSixOctets : Prop :=
  (∀ o : Operands, decode ⟨.op4 0x6#4, o⟩ = .hdrEncode o.h) ∧
    (∀ (h : RawHeader) (s : State),
      7 < h.version ∨ 2047 < h.appProcId ∨ 16383 < h.sequenceCount ∨ 65535 < h.dataLength →
      exec (.hdrEncode h) s = .next { s with response := some (.error .fieldOverflow) }) ∧
    ∀ (h : RawHeader) (s : State),
      h.version ≤ 7 → h.appProcId ≤ 2047 → h.sequenceCount ≤ 16383 → h.dataLength ≤ 65535 → 6 ≤ s.cfg.maxBuf →
      ∃ b0 b1 b2 b3 b4 b5 : Byte,
        exec (.hdrEncode h) s = .next { s with response := some (.ok (.bytes [b0, b1, b2, b3, b4, b5])) } ∧
        b0.toNat = h.version <<< 5 ||| h.packetType.code <<< 4 ||| h.secHeaderFlag.code <<< 3 ||| (h.appProcId >>> 8) % 8 ∧
        b1.toNat = h.appProcId % 256 ∧
        b2.toNat = h.sequenceFlags.code <<< 6 ||| (h.sequenceCount >>> 8) % 64 ∧
        b3.toNat = h.sequenceCount % 256 ∧
        b4.toNat = (h.dataLength >>> 8) % 256 ∧
        b5.toNat = h.dataLength % 256

/-- R102: the enum mappings and their inverses, and every returned header is valid. -/
def Obligations.EnumMappingsAreTotal : Prop :=
  PacketType.ofCode 0 = .data ∧ PacketType.ofCode 1 = .command ∧
    SecHeaderFlag.ofCode 0 = .notPresent ∧ SecHeaderFlag.ofCode 1 = .present ∧
    SequenceFlags.ofCode 0 = .continuation ∧ SequenceFlags.ofCode 1 = .firstSegment ∧
    SequenceFlags.ofCode 2 = .lastSegment ∧ SequenceFlags.ofCode 3 = .unsegmented ∧
    (∀ x : PacketType, PacketType.ofCode x.code = x ∧ x.code < 2) ∧
    (∀ x : SecHeaderFlag, SecHeaderFlag.ofCode x.code = x ∧ x.code < 2) ∧
    (∀ x : SequenceFlags, SequenceFlags.ofCode x.code = x ∧ x.code < 4) ∧
    (∀ c, c < 2 → (PacketType.ofCode c).code = c ∧ (SecHeaderFlag.ofCode c).code = c) ∧
    (∀ c, c < 4 → (SequenceFlags.ofCode c).code = c) ∧
    ∀ (buf rest : List Byte) (h : PrimaryHeader) (s t : State), exec (.hdrDecode buf) s = .next t →
      t.response = some (.ok (.header h rest)) →
      h.version ≤ 7 ∧ h.appProcId ≤ 2047 ∧ h.sequenceCount ≤ 16383 ∧ h.dataLength ≤ 65535

/-- R107: both round trips of the header codec, through the operations. -/
def Obligations.HeaderRoundTrips : Prop :=
  (∀ (h : PrimaryHeader) (s : State), h.valid = true → 6 ≤ s.cfg.maxBuf →
      ∃ bs t, exec (.hdrEncode h) s = .next t ∧ t = { s with response := some (.ok (.bytes bs)) } ∧ bs.length = 6 ∧
        exec (.hdrDecode bs) t = .next { s with response := some (.ok (.header h [])) }) ∧
    ∀ (buf : List Byte) (s : State), 6 ≤ buf.length → buf.length ≤ s.cfg.maxBuf →
      ∃ h t, exec (.hdrDecode buf) s = .next t ∧
        t = { s with response := some (.ok (.header h (buf.drop 6))) } ∧ h.valid = true ∧
        exec (.hdrEncode h) t = .next { s with response := some (.ok (.bytes (buf.take 6))) }

/-- R59: every header word is legal and stands for exactly one valid header, and the other way round. -/
def Obligations.EveryHeaderWordIsLegal : Prop :=
  (∀ (w : BitVec 48) (o : Operands), ∃ h, decode ⟨.hdr48 w, o⟩ = .primaryHeader h ∧ h.valid = true ∧
      (encode (.primaryHeader h)).word = .hdr48 w ∧
      ∀ h', h'.valid = true → (encode (.primaryHeader h')).word = .hdr48 w → h' = h) ∧
    ∀ h : PrimaryHeader, h.valid = true →
      ∃ w, (encode (.primaryHeader h)).word = .hdr48 w ∧ headerOfWord w = h ∧ ∀ w', headerOfWord w' = h → w' = w

/-- R50 and R51: the header format of the table and the octets of the codec are the same layout: HDR_DECODE reads from six
octets the fields of their header word, HDR_ENCODE writes the octets of the header word. -/
def Obligations.CodecOctetsAreTheHeaderWord : Prop :=
  (∀ (b0 b1 b2 b3 b4 b5 : Byte) (s : State), 6 ≤ s.cfg.maxBuf →
      exec (.hdrDecode [b0, b1, b2, b3, b4, b5]) s =
        .next { s with response := some (.ok (.header (headerOfWord (headerWord b0 b1 b2 b3 b4 b5)) [])) }) ∧
    (∀ (h : PrimaryHeader) (s : State), h.valid = true → 6 ≤ s.cfg.maxBuf →
      ∃ b0 b1 b2 b3 b4 b5 : Byte,
        exec (.hdrEncode h) s = .next { s with response := some (.ok (.bytes [b0, b1, b2, b3, b4, b5])) } ∧
        (encode (.primaryHeader h)).word = .hdr48 (headerWord b0 b1 b2 b3 b4 b5)) ∧
    ∀ h : PrimaryHeader, h.valid = true →
      (wordOfHeader h).toNat = h.version * 2 ^ 45 + h.packetType.code * 2 ^ 44 + h.secHeaderFlag.code * 2 ^ 43
        + h.appProcId * 2 ^ 32 + h.sequenceFlags.code * 2 ^ 30 + h.sequenceCount * 2 ^ 16 + h.dataLength

/-- R68, R54, R106: on a freshly loaded read cursor the seven TAKEs and REMAINING_BYTES give what HDR_DECODE gives, and leave
RPOS at 48; where HDR_DECODE raises `InsufficientData`, one of the seven TAKEs does. -/
def Obligations.SevenTakesDecodeAHeader : Prop :=
  (∀ (buf : List Byte) (s : State), buf.length < 6 → buf.length ≤ s.cfg.maxBuf →
    ∃ rs t, exec (.hdrDecode buf) s = .next { s with response := some (.error .insufficientData) } ∧
      execAll [.rdLoad buf, .take 3, .take 1, .take 1, .take 11, .take 2, .take 14, .take 16] s = some (rs, t) ∧
      Response.error .insufficientData ∈ rs) ∧
  ∀ (buf : List Byte) (s : State), 6 ≤ buf.length → buf.length ≤ s.cfg.maxBuf →
    ∃ (h : PrimaryHeader) (rest : List Byte) (t : State),
      exec (.hdrDecode buf) s = .next { s with response := some (.ok (.header h rest)) } ∧
      execAll [.rdLoad buf, .take 3, .take 1, .take 1, .take 11, .take 2, .take 14, .take 16, .bytePosition, .remainingBytes] s =
        some ([.ok .nothing, .ok (.int h.version), .ok (.int h.packetType.code), .ok (.int h.secHeaderFlag.code),
          .ok (.int h.appProcId), .ok (.int h.sequenceFlags.code), .ok (.int h.sequenceCount), .ok (.int h.dataLength),
          .ok (.int 6), .ok (.bytes rest)], t) ∧
      t = { s with rbuf := buf, rpos := 48, response := some (.ok (.bytes rest)) }

/-- R68, R54, R106: on an empty write cursor the seven PUTs of a valid header's fields and WR_READ give what HDR_ENCODE
gives; where HDR_ENCODE raises `FieldOverflow`, one of the seven PUTs does. -/
def Obligations.SevenPutsEncodeAHeader : Prop :=
  (∀ (h : RawHeader) (s : State), h.valid = false → 6 ≤ s.cfg.maxBuf →
    ∃ rs t, exec (.hdrEncode h) s = .next { s with response := some (.error .fieldOverflow) } ∧
      execAll [.wrClear, .put h.version 3, .put h.packetType.code 1, .put h.secHeaderFlag.code 1, .put h.appProcId 11,
        .put h.sequenceFlags.code 2, .put h.sequenceCount 14, .put h.dataLength 16] s = some (rs, t) ∧
      Response.error .fieldOverflow ∈ rs) ∧
  ∀ (h : PrimaryHeader) (s : State), h.valid = true → 6 ≤ s.cfg.maxBuf →
    ∃ (bs : List Byte) (t : State),
      exec (.hdrEncode h) s = .next { s with response := some (.ok (.bytes bs)) } ∧
      execAll [.wrClear, .put h.version 3, .put h.packetType.code 1, .put h.secHeaderFlag.code 1, .put h.appProcId 11,
          .put h.sequenceFlags.code 2, .put h.sequenceCount 14, .put h.dataLength 16, .wrRead] s =
        some ([.ok .nothing, .ok .nothing, .ok .nothing, .ok .nothing, .ok .nothing, .ok .nothing, .ok .nothing, .ok .nothing,
          .ok (.bytes bs)], t) ∧
      t.wbits.length = 48 ∧ t.rbuf = s.rbuf ∧ t.rpos = s.rpos

/-! ## The frame marshaller -/

/-- R121 (with R122, R123, R124 and the order of R160): the whole meaning of PKT_PARSE. -/
def Obligations.PktParseChecksThenSplits : Prop :=
  (∀ o : Operands, decode ⟨.op4 0x7#4, o⟩ = .pktParse o.buf) ∧
    (∀ (buf : List Byte) (s : State), buf.length ≤ s.cfg.maxBuf → buf.length < 6 →
      exec (.pktParse buf) s = .next { s with response := some (.error .insufficientData) }) ∧
    ∀ (buf rest : List Byte) (h : PrimaryHeader) (s : State), buf.length ≤ s.cfg.maxBuf →
      exec (.hdrDecode buf) s = .next { s with response := some (.ok (.header h rest)) } →
      (rest.length < h.dataLength + 1 →
        exec (.pktParse buf) s = .next { s with response := some (.error .truncatedPacket) }) ∧
      (h.dataLength + 1 < rest.length → exec (.pktParse buf) s = .refused .bufferLongerThanPacket) ∧
      (rest.length = h.dataLength + 1 → h.secHeaderFlag = .notPresent →
        exec (.pktParse buf) s = .next { s with response := some (.ok (.packet ⟨h, none, rest⟩)) }) ∧
      (rest.length = h.dataLength + 1 → h.secHeaderFlag = .present → s.cfg.cap.shDecode rest = .short →
        exec (.pktParse buf) s = .next { s with response := some (.error .truncatedPacket) }) ∧
      (∀ e, rest.length = h.dataLength + 1 → h.secHeaderFlag = .present → s.cfg.cap.shDecode rest = .fail e →
        exec (.pktParse buf) s = .next { s with response := some (.error (.secondaryHeaderDecodeFailed e)) }) ∧
      (∀ sh k, rest.length = h.dataLength + 1 → h.secHeaderFlag = .present → s.cfg.cap.shDecode rest = .ok sh k →
        rest.length < k → exec (.pktParse buf) s = .next { s with response := some (.error .truncatedPacket) }) ∧
      ∀ sh k, rest.length = h.dataLength + 1 → h.secHeaderFlag = .present → s.cfg.cap.shDecode rest = .ok sh k →
        k ≤ rest.length → exec (.pktParse buf) s = .next { s with response := some (.ok (.packet ⟨h, some sh, rest.drop k⟩)) }

/-- R181: with no capability bound, PKT_PARSE of a whole packet whose flag is `Present` raises `SecondaryHeaderDecodeFailed`
(with what value, the spec leaves open: log entry 2), and a packet whose flag is `NotPresent` still parses. -/
def Obligations.UnboundCapabilityFailsTheParse : Prop :=
  ∀ (buf rest : List Byte) (h : PrimaryHeader) (s : State), s.cfg.cap = .unbound → buf.length ≤ s.cfg.maxBuf →
    exec (.hdrDecode buf) s = .next { s with response := some (.ok (.header h rest)) } → rest.length = h.dataLength + 1 →
    (h.secHeaderFlag = .present →
      ∃ e, exec (.pktParse buf) s = .next { s with response := some (.error (.secondaryHeaderDecodeFailed e)) }) ∧
    (h.secHeaderFlag = .notPresent →
      exec (.pktParse buf) s = .next { s with response := some (.ok (.packet ⟨h, none, rest⟩)) })

/-- R126 (with R127, R128 and the order of R160): the whole meaning of PKT_BUILD for a payload within MAX_BUF (R44, R127;
beyond: `BuffersBeyondMaxBufAreRefused`, log entry 12). -/
def Obligations.PktBuildComputesTheHeader : Prop :=
  (∀ o : Operands, decode ⟨.op4 0x8#4, o⟩ = .pktBuild o.apid o.ptype o.sflags o.scount o.sh o.payload) ∧
    (∀ (apid : Nat) (ptype : PacketType) (sflags : SequenceFlags) (scount : Nat) (sh : Option SecHeader) (payload : List Byte)
        (s : State), payload.length ≤ s.cfg.maxBuf → 2047 < apid ∨ 16383 < scount →
      exec (.pktBuild apid ptype sflags scount sh payload) s = .next { s with response := some (.error .fieldOutOfRange) }) ∧
    (∀ (apid : Nat) (ptype : PacketType) (sflags : SequenceFlags) (scount : Nat) (sh : Option SecHeader) (payload : List Byte)
        (s : State), payload.length ≤ s.cfg.maxBuf → apid ≤ 2047 → scount ≤ 16383 →
      s.cfg.cap.lengthOf sh + payload.length = 0 →
      exec (.pktBuild apid ptype sflags scount sh payload) s = .next { s with response := some (.error .emptyDataField) }) ∧
    (∀ (apid : Nat) (ptype : PacketType) (sflags : SequenceFlags) (scount : Nat) (sh : Option SecHeader) (payload : List Byte)
        (s : State), payload.length ≤ s.cfg.maxBuf → apid ≤ 2047 → scount ≤ 16383 →
      65536 < s.cfg.cap.lengthOf sh + payload.length →
      exec (.pktBuild apid ptype sflags scount sh payload) s = .next { s with response := some (.error .payloadTooLarge) }) ∧
    ∀ (apid : Nat) (ptype : PacketType) (sflags : SequenceFlags) (scount : Nat) (sh : Option SecHeader) (payload : List Byte)
        (s : State), payload.length ≤ s.cfg.maxBuf → apid ≤ 2047 → scount ≤ 16383 →
      1 ≤ s.cfg.cap.lengthOf sh + payload.length → s.cfg.cap.lengthOf sh + payload.length ≤ 65536 →
      ∃ h : PrimaryHeader,
        exec (.pktBuild apid ptype sflags scount sh payload) s = .next { s with response := some (.ok (.packet ⟨h, sh, payload⟩)) } ∧
        h.version = 0 ∧ h.packetType = ptype ∧ (h.secHeaderFlag = .present ↔ sh.isSome = true) ∧ h.appProcId = apid ∧
        h.sequenceFlags = sflags ∧ h.sequenceCount = scount ∧
        h.dataLength = s.cfg.cap.lengthOf sh + payload.length - 1

/-- R129, R131: the whole meaning of PKT_TO_BYTES, for any record whose payload and result are within MAX_BUF (R44, R30; beyond:
`BuffersBeyondMaxBufAreRefused`, log entry 12). -/
def Obligations.PktToBytesConcatenates : Prop :=
  (∀ o : Operands, decode ⟨.op4 0x9#4, o⟩ = .pktToBytes o.p) ∧
    (∀ (p : SpacePacket) (s : State), p.header.valid = false → p.payload.length ≤ s.cfg.maxBuf →
      exec (.pktToBytes p) s = .next { s with response := some (.error .fieldOverflow) }) ∧
    ∀ (p : SpacePacket) (s : State), p.header.valid = true →
      6 + (s.cfg.cap.octetsOf p.secondary).length + p.payload.length ≤ s.cfg.maxBuf →
      ∃ hb, exec (.hdrEncode p.header) s = .next { s with response := some (.ok (.bytes hb)) } ∧ hb.length = 6 ∧
        (p.secondary = none →
          exec (.pktToBytes p) s = .next { s with response := some (.ok (.bytes (hb ++ p.payload))) }) ∧
        ∀ sh, p.secondary = some sh →
          exec (.pktToBytes p) s =
            .next { s with response := some (.ok (.bytes (hb ++ s.cfg.cap.shEncode sh ++ p.payload))) }

/-- R16 and 42_space_packet_marshaller.md R128 (derived there): a built packet is valid and carries its parts untouched. -/
def Obligations.BuiltPacketsAreValid : Prop :=
  ∀ (apid : Nat) (ptype : PacketType) (sflags : SequenceFlags) (scount : Nat) (sh : Option SecHeader) (payload : List Byte)
      (s t : State) (p : SpacePacket),
    exec (.pktBuild apid ptype sflags scount sh payload) s = .next t → t.response = some (.ok (.packet p)) →
    p.valid s.cfg.cap = true ∧ p.secondary = sh ∧ p.payload = payload

/-- 42_space_packet_marshaller.md R130 (derived there): the length of a serialised packet, for any record whose result is
within MAX_BUF (log entry 12); and for every valid packet under law 1 of R21, where MAX_BUF admits the length its header declares. -/
def Obligations.SerialisedLengthIsSixPlusDataField : Prop :=
  (∀ (p : SpacePacket) (s : State), p.header.valid = true →
    6 + (s.cfg.cap.octetsOf p.secondary).length + p.payload.length ≤ s.cfg.maxBuf →
    ∃ bs, exec (.pktToBytes p) s = .next { s with response := some (.ok (.bytes bs)) } ∧
      bs.length = 6 + (s.cfg.cap.octetsOf p.secondary).length + p.payload.length) ∧
  ∀ (p : SpacePacket) (s : State), p.valid s.cfg.cap = true →
    (∀ sh, p.secondary = some sh → s.cfg.cap.shLength sh = (s.cfg.cap.shEncode sh).length) →
    6 + p.header.dataLength + 1 ≤ s.cfg.maxBuf →
    ∃ bs, exec (.pktToBytes p) s = .next { s with response := some (.ok (.bytes bs)) } ∧
      bs.length = 6 + p.header.dataLength + 1 ∧ 7 ≤ bs.length ∧ bs.length ≤ 65542

/-- R132: the round-trip contract, for every packet PKT_BUILD returns and for every valid packet, where the capability obeys
laws 1 and 2 of R21 and MAX_BUF admits every legal packet. -/
def Obligations.ParseInvertsToBytes : Prop :=
  (∀ (apid : Nat) (ptype : PacketType) (sflags : SequenceFlags) (scount : Nat) (sh : Option SecHeader) (payload : List Byte)
        (s t : State) (p : SpacePacket),
      exec (.pktBuild apid ptype sflags scount sh payload) s = .next t → t.response = some (.ok (.packet p)) →
      (∀ x, sh = some x → s.cfg.cap.EncodeLaws x) → 65542 ≤ s.cfg.maxBuf →
      ∃ b u, exec (.pktToBytes p) t = .next u ∧ u = { s with response := some (.ok (.bytes b)) } ∧
        exec (.pktParse b) u = .next { s with response := some (.ok (.packet p)) }) ∧
    ∀ (s : State) (p : SpacePacket), p.valid s.cfg.cap = true →
      (∀ x, p.secondary = some x → s.cfg.cap.EncodeLaws x) → 65542 ≤ s.cfg.maxBuf →
      ∃ b u, exec (.pktToBytes p) s = .next u ∧ u = { s with response := some (.ok (.bytes b)) } ∧
        exec (.pktParse b) u = .next { s with response := some (.ok (.packet p)) }

/-! ## The host actions -/

/-- R183 (a host action, the spec's decision D4): a buffer within MAX_BUF becomes RBUF and RPOS is 0. -/
def Obligations.RdLoadSetsTheReadCursor : Prop :=
  (∀ o : Operands, decode ⟨.op4 0xA#4, o⟩ = .rdLoad o.buf) ∧
    ∀ (buf : List Byte) (s : State), buf.length ≤ s.cfg.maxBuf →
      exec (.rdLoad buf) s = .next { s with rbuf := buf, rpos := 0, response := some (.ok .nothing) }

/-- R184 (a host action, the spec's decision D4): WBITS becomes empty. -/
def Obligations.WrClearEmptiesTheWriter : Prop :=
  (∀ o : Operands, decode ⟨.op4 0xB#4, o⟩ = .wrClear) ∧
    ∀ s : State, exec .wrClear s = .next { s with wbits := [], response := some (.ok .nothing) }

/-- R185 with the byte view of R13 (a host action and its refusal, the spec's decisions D4 and D10): WR_READ returns
`WLEN/8` octets, each the sum of R13 over its eight bits, and is refused when a last octet is only partly written. -/
def Obligations.WrReadReturnsTheWrittenOctets : Prop :=
  (∀ o : Operands, decode ⟨.op4 0xC#4, o⟩ = .wrRead) ∧
    (∀ s : State, s.wbits.length % 8 ≠ 0 → exec .wrRead s = .refused .writtenBitsNotWholeOctets) ∧
    ∀ s : State, s.wbits.length % 8 = 0 →
      ∃ bs : List Byte, exec .wrRead s = .next { s with response := some (.ok (.bytes bs)) } ∧
        bs.length = s.wbits.length / 8 ∧
        ∀ i, i < s.wbits.length / 8 →
          (bs.getD i 0#8).toNat = ∑ k ∈ Finset.range 8, (s.wbits.getD (8 * i + k) false).toNat * 2 ^ (7 - k)

/-! ## Rows that are no operation -/

/-- R67 (the spec's decision D2): a request with a reserved select code is refused, whatever its operands and the state. -/
def Obligations.ReservedCodesAreRefused : Prop :=
  (∀ o : Operands, decode ⟨.op4 0x0#4, o⟩ = .reserved0 ∧ decode ⟨.op4 0xD#4, o⟩ = .reservedD ∧
      decode ⟨.op4 0xE#4, o⟩ = .reservedE ∧ decode ⟨.op4 0xF#4, o⟩ = .reservedF) ∧
    ∀ s : State, exec .reserved0 s = .refused .reservedOpCode ∧ exec .reservedD s = .refused .reservedOpCode ∧
      exec .reservedE s = .refused .reservedOpCode ∧ exec .reservedF s = .refused .reservedOpCode

/-- The header data format is no operation (opcode_table.json's row PRIMARY_HEADER): a header word issued as a request is
refused by name. That a header word can be issued at all is the model's choice, log entry 6. -/
def Obligations.DataFormatIsNoOperation : Prop :=
  ∀ (w : BitVec 48) (o : Operands) (s : State), exec (decode ⟨.hdr48 w, o⟩) s = .refused .dataFormatIsNoOperation

/-! ## Encoding -/

/-- Decoding the request of a well-formed instruction gives the instruction back, with every operand. -/
def Obligations.DecodeInvertsEncode : Prop :=
  ∀ i : Instr, i.WellFormed → decode (encode i) = i

/-- Words written out from R66 and R50 decode to what they stand for (V-H20 and V-H21 for the header format). -/
def Obligations.WrittenWordsDecode : Prop :=
  decodeTableWord 8 0b0001 = some (.take 0) ∧ decodeTableWord 8 0b0101 = some (.hdrDecode []) ∧
    decodeTableWord 8 0b1001 = some (.pktToBytes ⟨⟨0, .data, .notPresent, 0, .continuation, 0, 0⟩, none, []⟩) ∧
    decodeTableWord 8 0b1011 = some .wrClear ∧ decodeTableWord 8 0b1101 = some .reservedD ∧
    decodeTableWord 48 0b000110101010101111010101010101010000000011111111 =
      some (.primaryHeader ⟨0, .command, .present, 683, .unsegmented, 5461, 255⟩) ∧
    decodeTableWord 48 0xAD556AAAA55A = some (.primaryHeader ⟨5, .data, .present, 1365, .firstSegment, 10922, 42330⟩)
end

