-- ==== Sys2Proof/Laws/Codes.lean ====
section
/-! SUPPORT. The small lemmas of the enum codes (R56 to R58, R102), of header validity (R14), of bit counts (R84) and of the
header word (R7). -/

namespace Sys2Proof

theorem PacketType.code_lt (x : PacketType) : x.code < 2 := by cases x <;> decide
theorem SecHeaderFlag.code_lt (x : SecHeaderFlag) : x.code < 2 := by cases x <;> decide
theorem SequenceFlags.code_lt (x : SequenceFlags) : x.code < 4 := by cases x <;> decide

@[simp] theorem PacketType.ofCode_code (x : PacketType) : PacketType.ofCode x.code = x := by cases x <;> rfl
@[simp] theorem SecHeaderFlag.ofCode_code (x : SecHeaderFlag) : SecHeaderFlag.ofCode x.code = x := by cases x <;> rfl
@[simp] theorem SequenceFlags.ofCode_code (x : SequenceFlags) : SequenceFlags.ofCode x.code = x := by cases x <;> rfl

theorem PacketType.code_ofCode {c : Nat} (h : c < 2) : (PacketType.ofCode c).code = c := by interval_cases c <;> rfl
theorem SecHeaderFlag.code_ofCode {c : Nat} (h : c < 2) : (SecHeaderFlag.ofCode c).code = c := by interval_cases c <;> rfl
theorem SequenceFlags.code_ofCode {c : Nat} (h : c < 4) : (SequenceFlags.ofCode c).code = c := by interval_cases c <;> rfl

/-- R14's ranges. -/
theorem PrimaryHeader.valid_iff (h : PrimaryHeader) :
    h.valid = true ↔ h.version ≤ 7 ∧ h.appProcId ≤ 2047 ∧ h.sequenceCount ≤ 16383 ∧ h.dataLength ≤ 65535 := by
  simp only [PrimaryHeader.valid, fits, Bool.and_eq_true, decide_eq_true_eq, Config.wVersion, Config.wAppProcId,
    Config.wSequenceCount, Config.wDataLength]
  omega

/-- R84's range. -/
theorem legalCount_iff (n : Nat) : legalCount n = true ↔ 1 ≤ n ∧ n ≤ 16 := by simp [legalCount]

/-- The value of a header word (R7). -/
theorem headerWord_toNat (b0 b1 b2 b3 b4 b5 : Byte) :
    (headerWord b0 b1 b2 b3 b4 b5).toNat =
      b0.toNat * 2 ^ 40 + b1.toNat * 2 ^ 32 + b2.toNat * 2 ^ 24 + b3.toNat * 2 ^ 16 + b4.toNat * 2 ^ 8 + b5.toNat := by
  have := b0.isLt
  have := b1.isLt
  have := b2.isLt
  have := b3.isLt
  have := b4.isLt
  have := b5.isLt
  have join : ∀ a b : Nat, b < 2 ^ 8 → a <<< 8 ||| b = a * 2 ^ 8 + b := fun a b hb => by
    rw [← Nat.shiftLeft_add_eq_or_of_lt hb, Nat.shiftLeft_eq]
  simp only [headerWord, BitVec.toNat_append]
  rw [join _ _ (by omega), join _ _ (by omega), join _ _ (by omega), join _ _ (by omega), join _ _ (by omega)]
  omega

end Sys2Proof
end

