-- ==== Sys2Proof/Laws/State.lean ====
section
/-! SUPPORT. One lemma per field for each named update of the state. -/

namespace Sys2Proof.Machine

@[simp] theorem State.cleared_cfg (s : State) : s.cleared.cfg = s.cfg := rfl
@[simp] theorem State.cleared_rbuf (s : State) : s.cleared.rbuf = [] := rfl
@[simp] theorem State.cleared_rpos (s : State) : s.cleared.rpos = 0 := rfl
@[simp] theorem State.cleared_wbits (s : State) : s.cleared.wbits = [] := rfl
@[simp] theorem State.cleared_inputs (s : State) : s.cleared.inputs = s.inputs := rfl
@[simp] theorem State.cleared_response (s : State) : s.cleared.response = none := rfl

@[simp] theorem memWrite_cfg (s : State) (n v : Nat) : (memWrite s n v).cfg = s.cfg := rfl
@[simp] theorem memWrite_rbuf (s : State) (n v : Nat) : (memWrite s n v).rbuf = s.rbuf := rfl
@[simp] theorem memWrite_rpos (s : State) (n v : Nat) : (memWrite s n v).rpos = s.rpos := rfl
@[simp] theorem memWrite_wbits (s : State) (n v : Nat) : (memWrite s n v).wbits = s.wbits ++ valueBits v n := rfl
@[simp] theorem memWrite_inputs (s : State) (n v : Nat) : (memWrite s n v).inputs = s.inputs := rfl
@[simp] theorem memWrite_response (s : State) (n v : Nat) : (memWrite s n v).response = s.response := rfl

end Sys2Proof.Machine
end

