-- ==== Sys2Proof/Laws/Ops.lean ====
section
/-! SUPPORT. What the shared operations do, each said once: reading bits as a number, the bits of a value, the byte view of
written bits, and the ways an operation ends. -/

namespace Sys2Proof.Machine

/-! ## Reading bits (R34) -/

@[simp] theorem readBits_zero (bit : Nat → Bool) (a : Nat) : readBits bit a 0 = 0 := rfl

theorem readBits_succ (bit : Nat → Bool) (a n : Nat) :
    readBits bit a (n + 1) = 2 * readBits bit a n + (bit (a + n)).toNat := rfl

/-- A value read from `n` bits is below `2^n`. -/
theorem readBits_lt (bit : Nat → Bool) (a n : Nat) : readBits bit a n < 2 ^ n := by
  induction n with
  | zero => simp
  | succ n ih =>
    have := Bool.toNat_le (bit (a + n))
    rw [readBits_succ, Nat.pow_succ]
    omega

/-- Only the bits read matter. -/
theorem readBits_congr {f g : Nat → Bool} {a b n : Nat} (h : ∀ k < n, f (a + k) = g (b + k)) :
    readBits f a n = readBits g b n := by
  induction n with
  | zero => rfl
  | succ n ih => rw [readBits_succ, readBits_succ, ih fun k hk => h k (by omega), h n (by omega)]

/-- The mixed-width view of R34. -/
theorem readBits_add (bit : Nat → Bool) (a m n : Nat) :
    readBits bit a (m + n) = readBits bit a m * 2 ^ n + readBits bit (a + m) n := by
  induction n with
  | zero => simp
  | succ n ih =>
    rw [← Nat.add_assoc, readBits_succ, ih, readBits_succ, Nat.pow_succ, Nat.add_assoc a m n]
    ring

/-- The sum of R34. -/
theorem readBits_eq_sum (bit : Nat → Bool) (a n : Nat) :
    readBits bit a n = ∑ k ∈ Finset.range n, (bit (a + k)).toNat * 2 ^ (n - 1 - k) := by
  induction n with
  | zero => rfl
  | succ n ih =>
    rw [readBits_succ, ih, Finset.sum_range_succ, Finset.mul_sum]
    have hlast : n + 1 - 1 - n = 0 := by omega
    rw [hlast, Nat.pow_zero, Nat.mul_one]
    congr 1
    refine Finset.sum_congr rfl fun k hk => ?_
    have hk : k < n := Finset.mem_range.mp hk
    have hexp : n + 1 - 1 - k = (n - 1 - k) + 1 := by omega
    rw [hexp, Nat.pow_succ]
    ring

/-- Bits that spell a value, most significant first, read as that value. -/
theorem readBits_of_testBit {bit : Nat → Bool} {a n v : Nat} (h : ∀ k < n, bit (a + k) = v.testBit (n - 1 - k)) :
    readBits bit a n = v % 2 ^ n := by
  induction n generalizing v with
  | zero => simp [Nat.mod_one]
  | succ n ih =>
    have hinit : readBits bit a n = v / 2 % 2 ^ n := by
      refine ih fun k hk => ?_
      have hexp : n + 1 - 1 - k = (n - 1 - k) + 1 := by omega
      rw [h k (by omega), hexp, Nat.testBit_succ]
    have hlast : bit (a + n) = v.testBit 0 := by simpa using h n (by omega)
    have hmod : v % 2 ^ (n + 1) = v % 2 + 2 * (v / 2 % 2 ^ n) := by
      rw [Nat.pow_succ', Nat.mod_mul]
    have hbit : (v.testBit 0).toNat = v % 2 := by
      rw [Nat.testBit_zero]
      rcases Nat.mod_two_eq_zero_or_one v with h0 | h1 <;> simp [*]
    rw [readBits_succ, hinit, hlast, hbit, hmod]
    omega

/-! ## The bits of a value (R35) -/

@[simp] theorem valueBits_length (v n : Nat) : (valueBits v n).length = n := by
  induction n with
  | zero => rfl
  | succ n ih => simp [valueBits, ih]

/-- The bit put `k`-th is bit `n-1-k` of the value. -/
theorem valueBits_getElem? (v n k : Nat) (hk : k < n) : (valueBits v n)[k]? = some (v.testBit (n - 1 - k)) := by
  induction n generalizing k with
  | zero => omega
  | succ n ih =>
    cases k with
    | zero => simp [valueBits]
    | succ k =>
      have hexp : n + 1 - 1 - (k + 1) = n - 1 - k := by omega
      rw [hexp, valueBits, List.getElem?_cons_succ]
      exact ih k (by omega)

/-- The bits of a value, listed by R35's formula. -/
theorem valueBits_eq_map (v n : Nat) : valueBits v n = (List.range n).map fun k => v.testBit (n - 1 - k) := by
  refine List.ext_getElem? fun k => ?_
  by_cases hk : k < n
  · rw [valueBits_getElem? v n k hk]
    simp [hk]
  · rw [List.getElem?_eq_none (by simpa using hk), List.getElem?_eq_none (by simpa using hk)]

/-- The bits of a value made of two fields are the bits of the fields. -/
theorem valueBits_append (x y a b : Nat) (hy : y < 2 ^ b) :
    valueBits (x * 2 ^ b + y) (a + b) = valueBits x a ++ valueBits y b := by
  refine List.ext_getElem? fun k => ?_
  rcases Nat.lt_or_ge k a with hk | hk
  · rw [valueBits_getElem? _ _ _ (by omega), List.getElem?_append_left (by simpa using hk), valueBits_getElem? _ _ _ hk,
      Nat.mul_comm, Nat.testBit_two_pow_mul_add x hy, if_neg (by omega)]
    congr 2
    omega
  · rw [List.getElem?_append_right (by simpa using hk), valueBits_length]
    rcases Nat.lt_or_ge k (a + b) with hk' | hk'
    · rw [valueBits_getElem? _ _ _ hk', valueBits_getElem? _ _ _ (by omega), Nat.mul_comm, Nat.testBit_two_pow_mul_add x hy,
        if_pos (by omega)]
      congr 2
      omega
    · rw [List.getElem?_eq_none (by simpa using hk'), List.getElem?_eq_none (by simp; omega)]

/-! ## The byte view of written bits (R13) -/

@[simp] theorem packBytes_length (bits : List Bool) : (packBytes bits).length = bits.length / 8 := by
  simp [packBytes]

/-- Octet `i` of the byte view. -/
theorem packBytes_getD (bits : List Bool) (i : Nat) (hi : i < bits.length / 8) :
    (packBytes bits).getD i 0#8 = BitVec.ofNat 8 (readBits (fun j => bits.getD j false) (8 * i) 8) := by
  simp [packBytes, List.getD_eq_getElem?_getD, hi]

/-- The octets of a value of `m` whole octets, the most significant first. -/
theorem packBytes_valueBits (v m : Nat) :
    packBytes (valueBits v (8 * m)) = (List.range m).map fun i => BitVec.ofNat 8 (v / 2 ^ (8 * (m - 1 - i))) := by
  have hm : 8 * m / 8 = m := by omega
  rw [packBytes, valueBits_length, hm]
  refine List.map_congr_left fun i hi => ?_
  have hi : i < m := List.mem_range.mp hi
  rw [readBits_of_testBit (v := v / 2 ^ (8 * (m - 1 - i)))]
  · exact BitVec.eq_of_toNat_eq (by simp)
  · intro k hk
    rw [List.getD_eq_getElem?_getD, valueBits_getElem? _ _ _ (by omega), ← Nat.shiftRight_eq_div_pow, Nat.testBit_shiftRight,
      Option.getD_some]
    congr 1
    omega

/-- Bit `n-1-k` of a number read from `n` bits is the bit read `k`-th. -/
theorem readBits_testBit (bit : Nat → Bool) (a n k : Nat) (hk : k < n) :
    (readBits bit a n).testBit (n - 1 - k) = bit (a + k) := by
  induction n generalizing k with
  | zero => omega
  | succ n ih =>
    have hb := Bool.toNat_lt (bit (a + n))
    rw [readBits_succ]
    rcases Nat.lt_or_ge k n with hlt | hge
    · have hexp : n + 1 - 1 - k = (n - 1 - k) + 1 := by omega
      rw [hexp, Nat.testBit_succ, show (2 * readBits bit a n + (bit (a + n)).toNat) / 2 = readBits bit a n by omega, ih k hlt]
    · have hkn : k = n := by omega
      subst hkn
      rw [show k + 1 - 1 - k = 0 by omega, Nat.testBit_zero]
      cases bit (a + k) <;> simp

/-- Stream bit `j` of the byte view is the bit put `j`-th. -/
theorem streamBit_packBytes (bits : List Bool) (j : Nat) (hj : j < 8 * (bits.length / 8)) :
    streamBit (packBytes bits) j = bits.getD j false := by
  have hi : j / 8 < bits.length / 8 := by omega
  have hk : j % 8 < 8 := Nat.mod_lt _ (by decide)
  rw [streamBit, packBytes_getD bits _ hi, BitVec.getLsbD_ofNat]
  have hbit := readBits_testBit (fun j => bits.getD j false) (8 * (j / 8)) 8 (j % 8) hk
  rw [show 8 - 1 - j % 8 = 7 - j % 8 by omega, Nat.div_add_mod] at hbit
  rw [hbit, decide_eq_true (by omega : 7 - j % 8 < 8), Bool.true_and]

/-! ## How an operation ends (R8, R158) -/

/-- The only ends of `finish`: a result, an error, or a refusal, and no state written but the response. -/
theorem finish_next {α : Type} {s t : State} {f : α → Result} {r : OpResult α} (h : finish s f r = .next t) :
    (∃ a, r = .done a ∧ t = { s with response := some (.ok (f a)) }) ∨
      (∃ e, r = .raise e ∧ t = { s with response := some (.error e) }) := by
  cases r with
  | done a => exact .inl ⟨a, rfl, (Host.Outcome.next.inj h).symm⟩
  | raise e => exact .inr ⟨e, rfl, (Host.Outcome.next.inj h).symm⟩
  | refuse q => exact nomatch h

/-- The only ends of `finishBuffer`: a result buffer within MAX_BUF, an error, or a refusal. -/
theorem finishBuffer_next {s t : State} {r : OpResult (List Byte)} (h : finishBuffer s r = .next t) :
    (∃ bs, r = .done bs ∧ bs.length ≤ s.cfg.maxBuf ∧ t = { s with response := some (.ok (.bytes bs)) }) ∨
      (∃ e, r = .raise e ∧ t = { s with response := some (.error e) }) := by
  cases r with
  | done bs =>
    simp only [finishBuffer] at h
    split at h
    · exact .inl ⟨bs, rfl, by assumption, (Host.Outcome.next.inj h).symm⟩
    · exact nomatch h
  | raise e => exact .inr ⟨e, rfl, (Host.Outcome.next.inj h).symm⟩
  | refuse q => exact nomatch h

/-- A result buffer within MAX_BUF is handed over. -/
theorem finishBuffer_done_of_le {s : State} {bs : List Byte} (h : bs.length ≤ s.cfg.maxBuf) :
    finishBuffer s (.done bs) = .next { s with response := some (.ok (.bytes bs)) } := if_pos h

/-- A longer one is refused. -/
theorem finishBuffer_done_of_gt {s : State} {bs : List Byte} (h : s.cfg.maxBuf < bs.length) :
    finishBuffer s (.done bs) = .refused .resultLongerThanMaxBuf := if_neg (by omega)

/-- A buffer within MAX_BUF is accepted. -/
theorem withinMaxBuf_of_le {s : State} {buf : List Byte} (k : Host.Outcome State Fault Refusal)
    (h : buf.length ≤ s.cfg.maxBuf) : withinMaxBuf s buf k = k := if_pos h

/-- A longer buffer is refused. -/
theorem withinMaxBuf_of_gt {s : State} {buf : List Byte} (k : Host.Outcome State Fault Refusal)
    (h : s.cfg.maxBuf < buf.length) : withinMaxBuf s buf k = .refused .bufferLongerThanMaxBuf := if_neg (by omega)

/-- What stands behind an accepted buffer. -/
theorem withinMaxBuf_next {s t : State} {buf : List Byte} {k : Host.Outcome State Fault Refusal}
    (h : withinMaxBuf s buf k = .next t) : buf.length ≤ s.cfg.maxBuf ∧ k = .next t := by
  unfold withinMaxBuf at h
  split at h
  · exact ⟨‹_›, h⟩
  · exact nomatch h

end Sys2Proof.Machine
end

