-- ==== Sys2Proof/Laws/Exec.lean ====
section
/-! SUPPORT. What an operation and a step can do, each said once. -/

namespace Sys2Proof.Machine

/-- The pure operations raise only what R166 lists. -/
theorem headerDecode_raise {buf : List Byte} {e : SphcError} (h : headerDecode buf = .raise e) : e = .insufficientData := by
  unfold headerDecode at h
  split at h
  · exact (OpResult.raise.inj h).symm
  · exact nomatch h

theorem headerEncode_raise {x : RawHeader} {e : SphcError} (h : headerEncode x = .raise e) : e = .fieldOverflow := by
  unfold headerEncode at h
  split at h
  · exact nomatch h
  · exact (OpResult.raise.inj h).symm

theorem packetOfDataField_raise {cap : Cap} {x : PrimaryHeader} {rest : List Byte} {e : SphcError}
    (h : packetOfDataField cap x rest = .raise e) : e = .truncatedPacket ∨ ∃ m, e = .secondaryHeaderDecodeFailed m := by
  unfold packetOfDataField at h
  split at h
  · exact nomatch h
  · split at h
    · exact .inl (OpResult.raise.inj h).symm
    · exact .inr ⟨_, (OpResult.raise.inj h).symm⟩
    · split at h
      · exact .inl (OpResult.raise.inj h).symm
      · exact nomatch h

theorem packetParse_raise {cap : Cap} {buf : List Byte} {e : SphcError} (h : packetParse cap buf = .raise e) :
    e = .insufficientData ∨ e = .truncatedPacket ∨ ∃ m, e = .secondaryHeaderDecodeFailed m := by
  unfold packetParse at h
  split at h
  · rename_i e' hd
    exact .inl (OpResult.raise.inj h ▸ headerDecode_raise hd)
  · exact nomatch h
  · split at h
    · exact .inr (.inl (OpResult.raise.inj h).symm)
    · split at h
      · exact nomatch h
      · exact .inr (packetOfDataField_raise h)

theorem packetBuild_raise {cap : Cap} {apid : Nat} {ptype : PacketType} {sflags : SequenceFlags} {scount : Nat}
    {sh : Option SecHeader} {payload : List Byte} {e : SphcError}
    (h : packetBuild cap apid ptype sflags scount sh payload = .raise e) :
    e = .fieldOutOfRange ∨ e = .emptyDataField ∨ e = .payloadTooLarge := by
  unfold packetBuild at h
  dsimp only at h
  split_ifs at h
  · exact .inl (OpResult.raise.inj h).symm
  · exact .inr (.inl (OpResult.raise.inj h).symm)
  · exact .inr (.inr (OpResult.raise.inj h).symm)

theorem packetToBytes_raise {cap : Cap} {p : SpacePacket} {e : SphcError} (h : packetToBytes cap p = .raise e) :
    e = .fieldOverflow := by
  unfold packetToBytes at h
  split at h
  · exact nomatch h
  · rename_i e' he
    exact OpResult.raise.inj h ▸ headerEncode_raise he
  · exact nomatch h

/-- What a next state of an operation is: an error it may raise with nothing else written; or status OK with nothing else
written; or one of the four writes to the cursors. -/
inductive NextOf (i : Instr) (s t : State) : Prop where
  | error (e : SphcError) (may : mayRaise i e = true) (eq : t = { s with response := some (.error e) })
  | pure (r : Result) (idem : isIdempotent i = true) (eq : t = { s with response := some (.ok r) })
  | take (n v : Nat) (instr : i = .take n) (lo : 1 ≤ n) (hi : n ≤ 16) (room : s.rpos + n ≤ 8 * s.rbuf.length)
      (eq : t = { s with rpos := s.rpos + n, response := some (.ok (.int v)) })
  | put (v n : Nat) (instr : i = .put v n) (lo : 1 ≤ n) (hi : n ≤ 16) (room : s.wbits.length + n ≤ 8 * s.cfg.maxBuf)
      (eq : t = { s with wbits := s.wbits ++ valueBits v n, response := some (.ok .nothing) })
  | rdLoad (buf : List Byte) (instr : i = .rdLoad buf) (room : buf.length ≤ s.cfg.maxBuf)
      (eq : t = { s with rbuf := buf, rpos := 0, response := some (.ok .nothing) })
  | wrClear (instr : i = .wrClear) (eq : t = { s with wbits := [], response := some (.ok .nothing) })

/-- An operation that ends in `finish`. -/
theorem nextOf_finish {α : Type} {i : Instr} {s t : State} {f : α → Result} {r : OpResult α} (h : finish s f r = .next t)
    (idem : isIdempotent i = true) (may : ∀ e, r = .raise e → mayRaise i e = true) : NextOf i s t := by
  obtain ⟨a, -, rfl⟩ | ⟨e, he, rfl⟩ := finish_next h
  · exact .pure _ idem rfl
  · exact .error e (may e he) rfl

/-- An operation that ends in `finishBuffer`. -/
theorem nextOf_finishBuffer {i : Instr} {s t : State} {r : OpResult (List Byte)} (h : finishBuffer s r = .next t)
    (idem : isIdempotent i = true) (may : ∀ e, r = .raise e → mayRaise i e = true) : NextOf i s t := by
  obtain ⟨bs, -, -, rfl⟩ | ⟨e, he, rfl⟩ := finishBuffer_next h
  · exact .pure _ idem rfl
  · exact .error e (may e he) rfl

/-- Everything an operation that answers a next state can have done. -/
theorem exec_next {i : Instr} {s t : State} (h : exec i s = .next t) : NextOf i s t := by
  cases i with
  | take n =>
    simp only [exec, execTake] at h
    split at h
    · rename_i hn
      obtain ⟨lo, hi⟩ := (legalCount_iff n).mp hn
      split at h
      · exact .error _ rfl (Host.Outcome.next.inj h).symm
      · exact .take n _ rfl lo hi (by omega) (Host.Outcome.next.inj h).symm
    · exact nomatch h
  | put v n =>
    simp only [exec, execPut] at h
    split at h
    · rename_i hn
      obtain ⟨lo, hi⟩ := (legalCount_iff n).mp hn
      split at h
      · split at h
        · exact .put v n rfl lo hi (by assumption) (Host.Outcome.next.inj h).symm
        · exact nomatch h
      · exact .error _ rfl (Host.Outcome.next.inj h).symm
    · exact nomatch h
  | bytePosition =>
    simp only [exec, execBytePosition] at h
    split at h
    · exact .pure _ rfl (Host.Outcome.next.inj h).symm
    · exact nomatch h
  | remainingBytes =>
    simp only [exec, execRemainingBytes] at h
    split at h
    · exact .pure _ rfl (Host.Outcome.next.inj h).symm
    · exact nomatch h
  | hdrDecode buf =>
    exact nextOf_finish (withinMaxBuf_next h).2 rfl fun e he => headerDecode_raise he ▸ rfl
  | hdrEncode x => exact nextOf_finishBuffer h rfl fun e he => headerEncode_raise he ▸ rfl
  | pktParse buf =>
    refine nextOf_finish (withinMaxBuf_next h).2 rfl fun e he => ?_
    obtain rfl | rfl | ⟨m, rfl⟩ := packetParse_raise he <;> rfl
  | pktBuild apid ptype sflags scount sh payload =>
    refine nextOf_finish (withinMaxBuf_next h).2 rfl fun e he => ?_
    obtain rfl | rfl | rfl := packetBuild_raise he <;> rfl
  | pktToBytes p => exact nextOf_finishBuffer (withinMaxBuf_next h).2 rfl fun e he => packetToBytes_raise he ▸ rfl
  | rdLoad buf =>
    obtain ⟨hb, h⟩ := withinMaxBuf_next h
    exact .rdLoad buf rfl hb (Host.Outcome.next.inj h).symm
  | wrClear => exact .wrClear rfl (Host.Outcome.next.inj h).symm
  | wrRead =>
    simp only [exec, execWrRead] at h
    split at h
    · exact .pure _ rfl (Host.Outcome.next.inj h).symm
    · exact nomatch h
  | reserved0 => exact nomatch h
  | reservedD => exact nomatch h
  | reservedE => exact nomatch h
  | reservedF => exact nomatch h
  | primaryHeader x => exact nomatch h

/-- Everything a step that answers a next state can have been: nothing issued, a reset, or the request issued next. -/
theorem step_next {s t : State} (h : step s = .next t) :
    (s.inputs = [] ∧ t = s) ∨
      (∃ rest, s.inputs = .reset :: rest ∧ t = ({ s with inputs := rest } : State).cleared) ∨
      ∃ r rest, s.inputs = .request r :: rest ∧ exec (decode r) { s with inputs := rest } = .next t := by
  unfold step at h
  split at h
  · exact .inl ⟨by assumption, (Host.Outcome.next.inj h).symm⟩
  · exact .inr (.inl ⟨_, by assumption, (Host.Outcome.next.inj h).symm⟩)
  · exact .inr (.inr ⟨_, _, by assumption, h⟩)

/-- A run goes on from the state an operation leaves. -/
theorem execAll_cons {i : Instr} {is : List Instr} {s t u : State} {rs : List Response} (h : exec i s = .next t)
    (ht : execAll is t = some (rs, u)) : execAll (i :: is) s = some (t.response.toList ++ rs, u) := by
  simp [execAll, h, ht]

/-- A run of two lists is the run of the second from where the first ends. -/
theorem execAll_append {is js : List Instr} {s t u : State} {rs qs : List Response} (h : execAll is s = some (rs, t))
    (ht : execAll js t = some (qs, u)) : execAll (is ++ js) s = some (rs ++ qs, u) := by
  induction is generalizing s rs with
  | nil =>
    obtain ⟨rfl, rfl⟩ := Prod.mk.inj (Option.some.inj h)
    exact ht
  | cons i is ih =>
    simp only [execAll, List.cons_append] at h ⊢
    split at h
    · obtain ⟨r, hr, e⟩ := Option.map_eq_some_iff.mp h
      obtain ⟨rfl, rfl⟩ := Prod.mk.inj e
      simp [ih hr]
    · exact nomatch h
    · exact nomatch h

end Sys2Proof.Machine
end

