-- ==== Sys2Proof/Laws/HeaderCodec.lean ====
section
/-! SUPPORT. The two derivations of the header format agree (R54): masks and shifts against stream bits, packed octets against
seven PUTs. -/

namespace Sys2Proof.Machine

/-! ## Reading -/

/-- The first 48 stream bits are the bits of the header word (R7). -/
theorem streamBit_headerWord (b0 b1 b2 b3 b4 b5 : Byte) (rest : List Byte) {j : Nat} (hj : j < 48) :
    streamBit (b0 :: b1 :: b2 :: b3 :: b4 :: b5 :: rest) j = (headerWord b0 b1 b2 b3 b4 b5).getLsbD (47 - j) := by
  unfold streamBit headerWord
  simp only [BitVec.getLsbD_append]
  interval_cases j <;> simp

/-- A field read as stream bits is a slice of the value of the header word. -/
theorem bitsOf_headerWord (b0 b1 b2 b3 b4 b5 : Byte) (rest : List Byte) {a n : Nat} (h : a + n ≤ 48) :
    bitsOf (b0 :: b1 :: b2 :: b3 :: b4 :: b5 :: rest) a n =
      (headerWord b0 b1 b2 b3 b4 b5).toNat / 2 ^ (48 - a - n) % 2 ^ n := by
  rw [← Nat.shiftRight_eq_div_pow]
  refine readBits_of_testBit fun k hk => ?_
  rw [streamBit_headerWord _ _ _ _ _ _ _ (by omega), Nat.testBit_shiftRight, BitVec.getLsbD]
  congr 1
  omega

/-- R54, decoding: for every six octets the mask-and-shift lines of R52 give the seven stream-bit reads of R34. -/
theorem headerOfMasks_eq_headerOfOctets (b0 b1 b2 b3 b4 b5 : Byte) (rest : List Byte) :
    headerOfMasks b0 b1 b2 b3 b4 b5 = headerOfOctets (b0 :: b1 :: b2 :: b3 :: b4 :: b5 :: rest) := by
  have := b0.isLt
  have := b1.isLt
  have := b2.isLt
  have := b3.isLt
  have := b4.isLt
  have := b5.isLt
  have mask1 (a : Nat) : a &&& 1 = a % 2 := Nat.and_two_pow_sub_one_eq_mod a 1
  have mask3 (a : Nat) : a &&& 0x07 = a % 8 := Nat.and_two_pow_sub_one_eq_mod a 3
  have mask6 (a : Nat) : a &&& 0x3F = a % 64 := Nat.and_two_pow_sub_one_eq_mod a 6
  have join (a b : Nat) (hb : b < 2 ^ 8) : a <<< 8 ||| b = a * 2 ^ 8 + b := by
    rw [← Nat.shiftLeft_add_eq_or_of_lt hb, Nat.shiftLeft_eq]
  have bits (a n : Nat) (h : a + n ≤ 48) := bitsOf_headerWord b0 b1 b2 b3 b4 b5 rest h
  rw [headerOfMasks, headerOfOctets, mask1, mask1, mask3, mask6, join _ _ (by omega), join _ _ (by omega),
    join _ _ (by omega)]
  simp only [Nat.shiftRight_eq_div_pow, bits 0 3 (by decide), bits 3 1 (by decide), bits 4 1 (by decide), bits 5 11 (by decide),
    bits 16 2 (by decide), bits 18 14 (by decide), bits 32 16 (by decide), headerWord_toNat, PrimaryHeader.mk.injEq]
  refine ⟨by omega, congrArg _ ?_, congrArg _ ?_, by omega, congrArg _ ?_, by omega, by omega⟩ <;> omega

/-! ## Writing -/

/-- The header word is what seven PUTs of the fields in wire order append (R35, R51). -/
theorem putBits_eq_valueBits (h : PrimaryHeader) (hv : h.valid = true) :
    valueBits h.version 3 ++ valueBits h.packetType.code 1 ++ valueBits h.secHeaderFlag.code 1 ++ valueBits h.appProcId 11 ++
        valueBits h.sequenceFlags.code 2 ++ valueBits h.sequenceCount 14 ++ valueBits h.dataLength 16 =
      valueBits (h.version * 2 ^ 45 + h.packetType.code * 2 ^ 44 + h.secHeaderFlag.code * 2 ^ 43 + h.appProcId * 2 ^ 32
        + h.sequenceFlags.code * 2 ^ 30 + h.sequenceCount * 2 ^ 16 + h.dataLength) 48 := by
  obtain ⟨-, hapid, hcount, hlen⟩ := (PrimaryHeader.valid_iff h).mp hv
  have := h.packetType.code_lt
  have := h.secHeaderFlag.code_lt
  have := h.sequenceFlags.code_lt
  rw [← valueBits_append _ _ 3 1 (by omega), ← valueBits_append _ _ (3 + 1) 1 (by omega),
    ← valueBits_append _ _ (3 + 1 + 1) 11 (by omega), ← valueBits_append _ _ (3 + 1 + 1 + 11) 2 (by omega),
    ← valueBits_append _ _ (3 + 1 + 1 + 11 + 2) 14 (by omega), ← valueBits_append _ _ (3 + 1 + 1 + 11 + 2 + 14) 16 (by omega)]
  refine congrArg (valueBits · 48) ?_
  ring

/-- R54, encoding: for every valid header the six octets of R51 are the bytes that seven PUTs of its fields produce. -/
theorem octetsOfPuts_eq_octetsOfHeader (h : PrimaryHeader) (hv : h.valid = true) : octetsOfPuts h = octetsOfHeader h := by
  obtain ⟨hversion, hapid, hcount, hlen⟩ := (PrimaryHeader.valid_iff h).mp hv
  have := h.packetType.code_lt
  have := h.secHeaderFlag.code_lt
  have := h.sequenceFlags.code_lt
  have join (a b i : Nat) (hb : b < 2 ^ i) (ha : 2 ^ i ∣ a) : a ||| b = a + b := by
    obtain ⟨c, rfl⟩ := ha
    rw [Nat.two_pow_add_eq_or_of_lt hb]
  have first : h.version <<< 5 ||| h.packetType.code <<< 4 ||| h.secHeaderFlag.code <<< 3 ||| slice h.appProcId 10 8 =
      h.version * 32 + h.packetType.code * 16 + h.secHeaderFlag.code * 8 + h.appProcId / 256 := by
    simp only [slice, Nat.shiftLeft_eq, Nat.shiftRight_eq_div_pow, Nat.reduceSub, Nat.reduceAdd, Nat.reducePow]
    rw [join (h.version * 32) _ 5 (by omega) (by omega), join _ (h.secHeaderFlag.code * 8) 4 (by omega) (by omega),
      join _ _ 3 (by omega) (by omega)]
    omega
  have third : h.sequenceFlags.code <<< 6 ||| slice h.sequenceCount 13 8 =
      h.sequenceFlags.code * 64 + h.sequenceCount / 256 := by
    simp only [slice, Nat.shiftLeft_eq, Nat.shiftRight_eq_div_pow, Nat.reduceSub, Nat.reduceAdd, Nat.reducePow]
    rw [join _ _ 6 (by omega) (by omega)]
    omega
  rw [octetsOfPuts, putBits_eq_valueBits h hv, packBytes_valueBits _ 6, octetsOfHeader, first, third]
  simp only [List.range, List.range.loop, List.map_cons, List.map_nil, List.cons.injEq, and_true, slice,
    Nat.shiftRight_eq_div_pow]
  refine ⟨?_, ?_, ?_, ?_, ?_, ?_⟩ <;> refine BitVec.eq_of_toNat_eq ?_ <;> simp only [BitVec.toNat_ofNat] <;> omega

end Sys2Proof.Machine
end

