-- ==== Sys2Proof/Laws/Operands.lean ====
section
/-! SUPPORT. The capabilities the spec gives are lawful (R120, R21), and the packet invariant part by part (R16). -/

namespace Sys2Proof

/-- `Fixed2` obeys laws 1 and 2 for each of its secondary headers (R120). -/
theorem Cap.fixed_encodeLaws (sh : SecHeader) : (Cap.fixed sh.rep.length).EncodeLaws sh := by
  refine ⟨rfl, fun t => ?_⟩
  have hlen : ¬ (sh.rep ++ t).length < sh.rep.length := by simp
  simp only [Cap.shDecode, Cap.shEncode, if_neg hlen, List.take_left']

/-- `Fixed2` obeys law 3 (R120). -/
theorem Cap.fixed_lengthLaw (k : Nat) : (Cap.fixed k).LengthLaw := by
  intro x sh j h
  simp only [Cap.shDecode] at h
  split at h
  · exact nomatch h
  · obtain ⟨-, rfl⟩ := ShDecode.ok.inj h
    exact ⟨by omega, rfl⟩

/-- R16 part by part. -/
theorem SpacePacket.valid_iff (cap : Cap) (p : SpacePacket) :
    p.valid cap = true ↔ p.header.valid = true ∧ p.header.secHeaderFlag = .ofOption p.secondary ∧
      p.header.dataLength + 1 = cap.lengthOf p.secondary + p.payload.length := by
  simp only [SpacePacket.valid, Bool.and_eq_true, decide_eq_true_eq, and_assoc]

end Sys2Proof
end

