-- ==== Sys2Proof/Laws/PerInstr.lean ====
section
/-! SUPPORT. Per-instruction facts about the syntax: the encoder selects the row of opcode_table.json the instruction stands
for. -/

namespace Sys2Proof.Laws.EncodeSelectsRow

/-- The `encoding` column of opcode_table.json, and for the data format its one-word packing formula (R51). -/
def Statement : Instr → Prop
  | .take n => (encode (.take n)).word = .op4 0b0001#4
  | .put value n => (encode (.put value n)).word = .op4 0b0010#4
  | .bytePosition => (encode .bytePosition).word = .op4 0b0011#4
  | .remainingBytes => (encode .remainingBytes).word = .op4 0b0100#4
  | .hdrDecode buf => (encode (.hdrDecode buf)).word = .op4 0b0101#4
  | .hdrEncode h => (encode (.hdrEncode h)).word = .op4 0b0110#4
  | .pktParse buf => (encode (.pktParse buf)).word = .op4 0b0111#4
  | .pktBuild apid ptype sflags scount sh payload =>
      (encode (.pktBuild apid ptype sflags scount sh payload)).word = .op4 0b1000#4
  | .pktToBytes p => (encode (.pktToBytes p)).word = .op4 0b1001#4
  | .rdLoad buf => (encode (.rdLoad buf)).word = .op4 0b1010#4
  | .wrClear => (encode .wrClear).word = .op4 0b1011#4
  | .wrRead => (encode .wrRead).word = .op4 0b1100#4
  | .reserved0 => (encode .reserved0).word = .op4 0b0000#4
  | .reservedD => (encode .reservedD).word = .op4 0b1101#4
  | .reservedE => (encode .reservedE).word = .op4 0b1110#4
  | .reservedF => (encode .reservedF).word = .op4 0b1111#4
  | .primaryHeader h => (encode (.primaryHeader h)).word = .hdr48 (wordOfHeader h)

theorem take (n : Nat) : Statement (.take n) := rfl
theorem put (value n : Nat) : Statement (.put value n) := rfl
theorem bytePosition : Statement .bytePosition := rfl
theorem remainingBytes : Statement .remainingBytes := rfl
theorem hdrDecode (buf : List Byte) : Statement (.hdrDecode buf) := rfl
theorem hdrEncode (h : RawHeader) : Statement (.hdrEncode h) := rfl
theorem pktParse (buf : List Byte) : Statement (.pktParse buf) := rfl
theorem pktBuild (apid : Nat) (ptype : PacketType) (sflags : SequenceFlags) (scount : Nat) (sh : Option SecHeader)
    (payload : List Byte) : Statement (.pktBuild apid ptype sflags scount sh payload) := rfl
theorem pktToBytes (p : SpacePacket) : Statement (.pktToBytes p) := rfl
theorem rdLoad (buf : List Byte) : Statement (.rdLoad buf) := rfl
theorem wrClear : Statement .wrClear := rfl
theorem wrRead : Statement .wrRead := rfl
theorem reserved0 : Statement .reserved0 := rfl
theorem reservedD : Statement .reservedD := rfl
theorem reservedE : Statement .reservedE := rfl
theorem reservedF : Statement .reservedF := rfl
theorem primaryHeader (h : PrimaryHeader) : Statement (.primaryHeader h) := rfl

end Sys2Proof.Laws.EncodeSelectsRow
end

