-- ==== Sys2Proof/Tests/Slice0.lean ====
section
/-! SUPPORT. Tests. Expected values are those of spec/95_test_vectors.md (named V-..) or the encodings of spec/30_encoding.md. The
witnesses at the end show that the hypotheses of the statements can be met. -/

namespace Sys2Proof.Tests

open Sys2Proof.Machine

/-! ## Helpers -/

/-- The reset state with a read buffer and a position. -/
def loaded (buf : List Byte) (pos : Nat) : State := { State.reset with rbuf := buf, rpos := pos }

/-- The reset state with written bits. -/
def written (bits : List Bool) : State := { State.reset with wbits := bits }

/-- The reset state with a capability bound. -/
def bound (cap : Cap) : State := { State.reset with cfg := ⟨cap, 65542⟩ }

/-- `Fixed2` (R120). -/
def fixed2 : State := bound (.fixed 2)

/-- The reset state in an instance with MAX_BUF 8. -/
def small : State := { State.reset with cfg := ⟨.fixed 2, 8⟩ }

/-- The same with MAX_BUF 5. -/
def tiny : State := { State.reset with cfg := ⟨.fixed 2, 5⟩ }

/-- The response of a next state. -/
def response : Host.Outcome State Fault Refusal → Option Response
  | .next s => s.response
  | _ => none

/-- The refusal. -/
def refusal : Host.Outcome State Fault Refusal → Option Refusal
  | .refused r => some r
  | _ => none

/-- `RBUF`, `RPOS` and `WBITS` of a next state. -/
def cursors : Host.Outcome State Fault Refusal → Option (List Byte × Nat × List Bool)
  | .next s => some (s.rbuf, s.rpos, s.wbits)
  | _ => none

/-! ## Well-formedness: each check refuses an ill-formed term -/

theorem test_wf_take_zero : Instr.wf (.take 0) = false := by decide
theorem test_wf_take_seventeen : Instr.wf (.take 17) = false := by decide
theorem test_wf_put_zero : Instr.wf (.put 0 0) = false := by decide
theorem test_wf_put_seventeen : Instr.wf (.put 0 17) = false := by decide
theorem test_wf_version : Instr.wf (.primaryHeader ⟨8, .data, .notPresent, 0, .continuation, 0, 0⟩) = false := by decide
theorem test_wf_apid : Instr.wf (.primaryHeader ⟨0, .data, .notPresent, 2048, .continuation, 0, 0⟩) = false := by decide
theorem test_wf_scount : Instr.wf (.primaryHeader ⟨0, .data, .notPresent, 0, .continuation, 16384, 0⟩) = false := by decide
theorem test_wf_dlen : Instr.wf (.primaryHeader ⟨0, .data, .notPresent, 0, .continuation, 0, 65536⟩) = false := by decide
theorem test_wf_widths_sum_to_48 :
    Config.wVersion + Config.wPacketType + Config.wSecHeaderFlag + Config.wAppProcId + Config.wSequenceFlags
      + Config.wSequenceCount + Config.wDataLength = Config.hdrBits := by decide

/-! ## Decoding, each select code from R66 and R67, the header format from R50 -/

/-- Operands every one of which differs from zero. -/
def someOperands : Operands where
  n := 5
  value := 9
  buf := [1#8]
  h := ⟨1, .command, .present, 2, .lastSegment, 3, 4⟩
  apid := 6
  ptype := .command
  sflags := .firstSegment
  scount := 7
  sh := some ⟨[8#8]⟩
  payload := [9#8]
  p := ⟨⟨1, .data, .present, 2, .lastSegment, 3, 4⟩, some ⟨[10#8]⟩, [11#8]⟩

theorem test_decode_take : decode ⟨.op4 0b0001#4, someOperands⟩ = .take 5 := by decide
theorem test_decode_put : decode ⟨.op4 0b0010#4, someOperands⟩ = .put 9 5 := by decide
theorem test_decode_byte_position : decode ⟨.op4 0b0011#4, someOperands⟩ = .bytePosition := by decide
theorem test_decode_remaining_bytes : decode ⟨.op4 0b0100#4, someOperands⟩ = .remainingBytes := by decide
theorem test_decode_hdr_decode : decode ⟨.op4 0b0101#4, someOperands⟩ = .hdrDecode [1#8] := by decide
theorem test_decode_hdr_encode :
    decode ⟨.op4 0b0110#4, someOperands⟩ = .hdrEncode ⟨1, .command, .present, 2, .lastSegment, 3, 4⟩ := by decide
theorem test_decode_pkt_parse : decode ⟨.op4 0b0111#4, someOperands⟩ = .pktParse [1#8] := by decide
theorem test_decode_pkt_build :
    decode ⟨.op4 0b1000#4, someOperands⟩ = .pktBuild 6 .command .firstSegment 7 (some ⟨[8#8]⟩) [9#8] := by decide
theorem test_decode_pkt_to_bytes :
    decode ⟨.op4 0b1001#4, someOperands⟩ =
      .pktToBytes ⟨⟨1, .data, .present, 2, .lastSegment, 3, 4⟩, some ⟨[10#8]⟩, [11#8]⟩ := by decide
theorem test_decode_rd_load : decode ⟨.op4 0b1010#4, someOperands⟩ = .rdLoad [1#8] := by decide
theorem test_decode_wr_clear : decode ⟨.op4 0b1011#4, someOperands⟩ = .wrClear := by decide
theorem test_decode_wr_read : decode ⟨.op4 0b1100#4, someOperands⟩ = .wrRead := by decide
theorem test_decode_reserved_0 : decode ⟨.op4 0b0000#4, someOperands⟩ = .reserved0 := by decide
theorem test_decode_reserved_d : decode ⟨.op4 0b1101#4, someOperands⟩ = .reservedD := by decide
theorem test_decode_reserved_e : decode ⟨.op4 0b1110#4, someOperands⟩ = .reservedE := by decide
theorem test_decode_reserved_f : decode ⟨.op4 0b1111#4, someOperands⟩ = .reservedF := by decide
/-- V-H22, its 48 bits field by field: 001 1 0 00100100011 10 00101010111100 0000000000000111. -/
theorem test_decode_primary_header :
    decodeTableWord 48 0b001100010010001110001010101111000000000000000111 =
      some (.primaryHeader ⟨1, .command, .notPresent, 291, .lastSegment, 2748, 7⟩) := by decide
theorem test_decode_no_format : decodeTableWord 16 1 = none := by decide

/-! ## The Bit Cursor (V-C, V-W) -/

/-- V-C2: 16 bits of three octets. -/
theorem test_take_three_octets :
    response (exec (.take 16) (loaded [0xA5#8, 0x3C#8, 0x7E#8] 3)) = some (.ok (.int 10723)) := by decide
/-- V-C4: 3 bits remain, RPOS stays. -/
theorem test_take_insufficient :
    response (exec (.take 4) (loaded [0xFF#8] 5)) = some (.error .insufficientData) ∧
      cursors (exec (.take 4) (loaded [0xFF#8] 5)) = some ([0xFF#8], 5, []) := by decide
/-- V-W3's second PUT, at an unaligned WLEN. -/
theorem test_put_msb_first :
    cursors (exec (.put 5 3) (written [false, true])) = some ([], 0, [false, true, true, false, true]) := by decide
/-- V-W4. -/
theorem test_put_overflow : response (exec (.put 8 3) State.reset) = some (.error .fieldOverflow) := by decide
/-- V-C6. -/
theorem test_byte_position :
    response (exec .bytePosition (loaded [0xFF#8, 0x00#8] 8)) = some (.ok (.int 1)) ∧
      refusal (exec .bytePosition (loaded [0xFF#8, 0x00#8] 3)) = some .readCursorNotByteAligned := by decide
/-- V-C6. -/
theorem test_remaining_bytes :
    response (exec .remainingBytes (loaded [0xFF#8, 0x00#8] 8)) = some (.ok (.bytes [0x00#8])) ∧
      refusal (exec .remainingBytes (loaded [0xFF#8, 0x00#8] 3)) = some .readCursorNotByteAligned := by decide

/-! ## The Primary Header Codec (V-H) -/

/-- V-H21, with a rest passed on. -/
theorem test_hdr_decode :
    response (exec (.hdrDecode [0xAD#8, 0x55#8, 0x6A#8, 0xAA#8, 0xA5#8, 0x5A#8, 0x01#8]) State.reset) =
      some (.ok (.header ⟨5, .data, .present, 1365, .firstSegment, 10922, 42330⟩ [0x01#8])) := by decide
/-- V-H30. -/
theorem test_hdr_decode_short :
    response (exec (.hdrDecode [0x00#8, 0x00#8, 0xC0#8, 0x00#8, 0x00#8]) State.reset) =
      some (.error .insufficientData) := by decide
/-- V-H20. -/
theorem test_hdr_encode :
    response (exec (.hdrEncode ⟨0, .command, .present, 683, .unsegmented, 5461, 255⟩) State.reset) =
      some (.ok (.bytes [0x1A#8, 0xAB#8, 0xD5#8, 0x55#8, 0x00#8, 0xFF#8])) := by decide
/-- V-H27. -/
theorem test_hdr_encode_overflow :
    response (exec (.hdrEncode ⟨0, .data, .notPresent, 0, .continuation, 0, 65536⟩) State.reset) =
      some (.error .fieldOverflow) := by decide

/-! ## The frame marshaller (V-P, V-B) -/

/-- V-P12. -/
theorem test_pkt_parse :
    response (exec (.pktParse [0x1A#8, 0xAB#8, 0xD5#8, 0x55#8, 0x00#8, 0x03#8, 0xDE#8, 0xAD#8, 0xBE#8, 0xEF#8]) fixed2) =
      some (.ok (.packet ⟨⟨0, .command, .present, 683, .unsegmented, 5461, 3⟩, some ⟨[0xDE#8, 0xAD#8]⟩, [0xBE#8, 0xEF#8]⟩)) := by
  decide
/-- V-P7, V-P10, V-P11, V-P8. -/
theorem test_pkt_parse_not_parsed :
    response (exec (.pktParse [0x08#8, 0x00#8, 0x00#8, 0x00#8, 0x00#8, 0x00#8, 0xAA#8]) fixed2) =
      some (.error .truncatedPacket) ∧
    response (exec (.pktParse [0x08#8, 0x00#8, 0xC0#8, 0x00#8, 0x00#8, 0x01#8, 0x11#8, 0x22#8]) (bound (.constant (.fail ⟨3⟩)))) =
      some (.error (.secondaryHeaderDecodeFailed ⟨3⟩)) ∧
    response (exec (.pktParse [0x08#8, 0x00#8, 0xC0#8, 0x00#8, 0x00#8, 0x05#8, 0x11#8, 0x22#8]) (bound (.constant (.fail ⟨3⟩)))) =
      some (.error .truncatedPacket) ∧
    refusal (exec (.pktParse [0x00#8, 0x00#8, 0xC0#8, 0x00#8, 0x00#8, 0x00#8, 0xAB#8, 0xCD#8]) State.reset) =
      some .bufferLongerThanPacket := by decide
/-- V-B11. -/
theorem test_pkt_build :
    response (exec (.pktBuild 291 .command .firstSegment 2748 (some ⟨[0xCA#8, 0xFE#8]⟩) []) fixed2) =
      some (.ok (.packet ⟨⟨0, .command, .present, 291, .firstSegment, 2748, 1⟩, some ⟨[0xCA#8, 0xFE#8]⟩, []⟩)) := by decide
/-- V-B7, V-B4, V-B8. -/
theorem test_pkt_build_errors :
    response (exec (.pktBuild 2048 .data .unsegmented 0 none []) State.reset) = some (.error .fieldOutOfRange) ∧
      response (exec (.pktBuild 0 .data .unsegmented 16384 none [1#8]) State.reset) = some (.error .fieldOutOfRange) ∧
      response (exec (.pktBuild 0 .data .unsegmented 0 none []) State.reset) = some (.error .emptyDataField) := by decide
/-- V-B11. -/
theorem test_pkt_to_bytes :
    response (exec (.pktToBytes ⟨⟨0, .command, .present, 291, .firstSegment, 2748, 1⟩, some ⟨[0xCA#8, 0xFE#8]⟩, []⟩) fixed2) =
      some (.ok (.bytes [0x19#8, 0x23#8, 0x4A#8, 0xBC#8, 0x00#8, 0x01#8, 0xCA#8, 0xFE#8])) := by decide

/-! ## Host actions and the step -/

/-- R183. -/
theorem test_rd_load :
    cursors (exec (.rdLoad [0x08#8, 0x00#8]) (loaded [0xFF#8] 5)) = some ([0x08#8, 0x00#8], 0, []) := by decide
/-- R184. -/
theorem test_wr_clear : cursors (exec .wrClear (written [true])) = some ([], 0, []) := by decide
/-- R185's example: 000 0 1 00000000000. -/
theorem test_wr_read :
    response (exec .wrRead (written
      [false, false, false, false, true, false, false, false, false, false, false, false, false, false, false, false])) =
      some (.ok (.bytes [0x08#8, 0x00#8])) := by decide
/-- R185. -/
theorem test_wr_read_partial : refusal (exec .wrRead (written [true, true, true])) = some .writtenBitsNotWholeOctets := by decide
/-- R44 and R30 in an instance with MAX_BUF 8: a payload of 9 octets, and a result of 6 + 3 octets. -/
theorem test_max_buf :
    refusal (exec (.pktBuild 0 .data .unsegmented 0 none (List.replicate 9 0#8)) small) = some .bufferLongerThanMaxBuf ∧
      refusal (exec (.pktToBytes ⟨⟨0, .data, .notPresent, 0, .unsegmented, 0, 2⟩, none, [1#8, 2#8, 3#8]⟩) small) =
        some .resultLongerThanMaxBuf := by decide
/-- R67. -/
theorem test_reserved : refusal (step (State.reset.withFetchWord 8 0xD)) = some .reservedOpCode := by decide
/-- R151: the first request after reset runs. -/
theorem test_step_runs_first_request :
    response (step (State.reset.withFetchWord 8 0x5)) = some (.error .insufficientData) ∧
      response (step (State.reset.withFetchWord 8 0xC)) = some (.ok (.bytes [])) := by decide
/-- R180. -/
theorem test_step_reset :
    cursors (step { loaded [1#8] 3 with inputs := [.reset], wbits := [true] }) = some ([], 0, []) := by decide

/-! ## Witnesses: the hypotheses of each statement can be met, clause by clause, at a boundary -/

theorem witness_StepPerformsTheNextRequest :
    Instr.WellFormed (.take 16) ∧ (∃ s : State, s.inputs = .request (encode (.take 16)) :: [.reset]) ∧
      ∃ s : State, s.inputs = [] :=
  ⟨by decide, ⟨{ State.reset with inputs := _ }, rfl⟩, ⟨State.reset, rfl⟩⟩

theorem witness_ResetEmptiesTheCursors : ∃ (s : State) (n : Nat), s.inputs = .reset :: [] ∧ 1 ≤ n ∧ n ≤ 16 :=
  ⟨{ loaded [1#8] 3 with inputs := [.reset] }, 16, rfl, by decide, by decide⟩

theorem witness_ErrorsWriteNoState :
    ∃ t, exec (.take 1) (loaded [0xFF#8] 8) = .next t ∧ t.response = some (.error .insufficientData) := ⟨_, rfl, rfl⟩

theorem witness_ErrorsComeFromTheirOperations :
    ∃ t, exec (.put 2 1) State.reset = .next t ∧ t.response = some (.error .fieldOverflow) := ⟨_, rfl, rfl⟩

theorem witness_StepKeepsTheCursorBounds :
    ∃ s t : State, s.Inv ∧ step s = .next t ∧ t.rpos = 8 * t.rbuf.length ∧ t ≠ s :=
  ⟨{ loaded [0xFF#8] 7 with inputs := [.request (encode (.take 1))] }, _, by decide, rfl, by decide, by decide⟩

theorem witness_StepKeepsBuffersWithinMaxBuf :
    ∃ s t : State, s.BuffersWithinMaxBuf ∧ step s = .next t ∧ (∃ bs, t.response = some (.ok (.bytes bs)) ∧ bs.length = t.cfg.maxBuf) :=
  ⟨{ small with inputs := [.request (encode (.pktToBytes ⟨⟨0, .data, .notPresent, 0, .unsegmented, 0, 1⟩, none, [1#8, 2#8]⟩))] },
    _, ⟨by decide, by decide, trivial⟩, rfl, _, rfl, by decide⟩

theorem witness_BuffersBeyondMaxBufAreRefused :
    small.cfg.maxBuf < (List.replicate 9 0#8).length ∧
      (PrimaryHeader.valid ⟨7, .command, .present, 2047, .unsegmented, 16383, 65535⟩ = true ∧ tiny.cfg.maxBuf < 6) ∧
      [1#8].length ≤ small.cfg.maxBuf ∧
      small.cfg.maxBuf < 6 + (small.cfg.cap.octetsOf (some ⟨[1#8, 2#8]⟩)).length + [1#8].length := by decide

theorem witness_StepKeepsResponsesValid :
    ∃ s t : State, s.ResponseValid ∧ step s = .next t ∧
      t.response = some (.ok (.packet ⟨⟨0, .data, .notPresent, 0, .unsegmented, 0, 0⟩, none, [0xAB#8]⟩)) :=
  ⟨{ State.reset with inputs := [.request (encode (.pktParse [0x00#8, 0x00#8, 0xC0#8, 0x00#8, 0x00#8, 0x00#8, 0xAB#8]))] },
    _, trivial, rfl, by decide⟩

theorem witness_StepKeepsTheConfiguration : ∃ s t : State, step s = .next t ∧ t ≠ s :=
  ⟨{ State.reset with inputs := [.reset] }, _, rfl, by decide⟩

theorem witness_CodecOperationsIgnoreTheCursors :
    isCodecOperation (.hdrDecode []) = true ∧ (loaded [] 0).cfg = (loaded [1#8] 3).cfg ∧
      (∃ s', exec (.hdrDecode []) (loaded [] 0) = .next s') ∧
      isCodecOperation (.pktParse [0#8, 0#8, 0#8, 0#8, 0#8, 0#8, 0#8, 0#8]) = true ∧
      ∃ r, exec (.pktParse [0#8, 0#8, 0#8, 0#8, 0#8, 0#8, 0#8, 0#8]) (loaded [] 0) = .refused r :=
  ⟨rfl, rfl, ⟨_, rfl⟩, rfl, ⟨_, rfl⟩⟩

theorem witness_NoHiddenState :
    (∃ s t : State, s ≠ t ∧ s.cfg = t.cfg ∧ (s.rbuf = t.rbuf ∧ s.rpos = t.rpos ∧ s.wbits = t.wbits) ∧
      (∃ s', exec (.take 8) s = .next s') ∧ ∃ r, exec (.take 0) s = .refused r) ∧
    ∃ s t : State, s.rbuf ≠ t.rbuf ∧ s.cfg = t.cfg ∧ isCodecOperation (.hdrDecode []) = true ∧
      ∃ s', exec (.hdrDecode []) s = .next s' :=
  ⟨⟨loaded [1#8] 0, { loaded [1#8] 0 with inputs := [.reset] }, by decide, rfl, ⟨rfl, rfl, rfl⟩, ⟨_, rfl⟩, ⟨_, rfl⟩⟩,
    ⟨loaded [1#8] 0, State.reset, by decide, rfl, rfl, ⟨_, rfl⟩⟩⟩

theorem witness_OnlyFourOperationsWriteTheCursors :
    (∃ t, exec .wrRead (written []) = .next t ∧ isIdempotent .wrRead = true ∧ (∀ buf, Instr.wrRead ≠ .rdLoad buf) ∧
      (∀ n, Instr.wrRead ≠ .take n) ∧ Instr.wrRead ≠ .wrClear ∧ ∀ v n, Instr.wrRead ≠ .put v n) ∧
    (∃ t e, exec (.take 2) (loaded [0#8] 7) = .next t ∧ t.response = some (.error e)) ∧
    (∃ t r, exec (.take 1) (loaded [0#8] 7) = .next t ∧ t.response = some (.ok r)) ∧
    ∃ t r, exec (.put 0 1) (written []) = .next t ∧ t.response = some (.ok r) :=
  ⟨⟨_, rfl, rfl, nofun, nofun, nofun, nofun⟩, ⟨_, _, rfl, rfl⟩, ⟨_, _, rfl, rfl⟩, ⟨_, _, rfl, rfl⟩⟩

theorem witness_EveryOperationCompletesUnlessTheSpecRefuses :
    specRefusal State.reset (.take 1) = none ∧ specRefusal State.reset (.take 17) = some .badBitCount ∧
      (∃ r, exec (.take 0) State.reset = .refused r) ∧ ∃ t, exec .wrClear State.reset = .next t ∧ t.response.isSome = true :=
  ⟨by decide, by decide, ⟨_, rfl⟩, ⟨_, rfl, rfl⟩⟩

theorem witness_TakeReadsTheNextBits :
    (0 < 1 ∨ 16 < 0) ∧ (1 ≤ 16 ∧ 16 ≤ 16 ∧ 8 * (loaded [0#8, 0#8] 1).rbuf.length < (loaded [0#8, 0#8] 1).rpos + 16) ∧
      (1 ≤ 16 ∧ 16 ≤ 16 ∧ (loaded [0#8, 0#8] 0).rpos + 16 ≤ 8 * (loaded [0#8, 0#8] 0).rbuf.length) := by decide

theorem witness_PutAppendsTheValueBits :
    (17 < 1 ∨ 16 < 17) ∧ (1 ≤ 1 ∧ 1 ≤ 16 ∧ 2 ^ 1 ≤ 2 ∧ (written []).wbits.length + 1 ≤ 8 * (written []).cfg.maxBuf) ∧
      (1 ≤ 16 ∧ 16 ≤ 16 ∧ 65535 < 2 ^ 16 ∧ (written []).wbits.length + 16 ≤ 8 * (written []).cfg.maxBuf) := by decide

theorem witness_PutWithoutRoom :
    1 ≤ 1 ∧ 1 ≤ 16 ∧ 1 < 2 ^ 1 ∧ 2 ^ 1 ≤ 2 ∧
      8 * small.cfg.maxBuf < ({ small with wbits := List.replicate 64 true } : State).wbits.length + 1 := by decide

theorem witness_BytePositionCountsWholeOctets :
    (loaded [0#8] 7).rpos % 8 ≠ 0 ∧ (loaded [0#8] 8).rpos % 8 = 0 ∧ (loaded [0#8] 8).Inv := by decide

theorem witness_RemainingBytesHandsOffTheRest : (loaded [0#8] 7).rpos % 8 ≠ 0 ∧ (loaded [0#8] 8).rpos % 8 = 0 := by decide

theorem witness_TwoTakesEqualOne :
    ∃ (s : State) (a b : Nat), 1 ≤ a ∧ 1 ≤ b ∧ a + b ≤ 16 ∧ s.rpos + a + b ≤ 8 * s.rbuf.length :=
  ⟨loaded [0xA5#8, 0x3C#8] 0, 5, 11, by decide⟩

theorem witness_TwoPutsEqualOne :
    ∃ (s : State) (x a y b : Nat), 1 ≤ a ∧ 1 ≤ b ∧ a + b ≤ 16 ∧ x < 2 ^ a ∧ y < 2 ^ b ∧
      s.wbits.length + a + b ≤ 8 * s.cfg.maxBuf :=
  ⟨State.reset, 31, 5, 2047, 11, by decide⟩

theorem witness_TakeUndoesPut :
    ∃ (fields : List (Nat × Nat)) (s : State), (∀ f ∈ fields, 1 ≤ f.2 ∧ f.2 ≤ 16 ∧ f.1 < 2 ^ f.2) ∧
      (fields.map Prod.snd).sum % 8 = 0 ∧ (fields.map Prod.snd).sum ≤ 8 * s.cfg.maxBuf ∧ s.wbits = [] ∧ fields ≠ [] :=
  ⟨[(1, 1), (65535, 16), (0, 7)], State.reset, by decide⟩

theorem witness_HdrDecodeReadsTheSevenFields :
    (([0#8, 0#8, 0#8, 0#8, 0#8] : List Byte).length < 6 ∧ 5 ≤ State.reset.cfg.maxBuf) ∧
      6 + ([] : List Byte).length ≤ State.reset.cfg.maxBuf := by decide

theorem witness_HdrEncodeFormsTheSixOctets :
    ∃ bad good : RawHeader,
      (7 < bad.version ∨ 2047 < bad.appProcId ∨ 16383 < bad.sequenceCount ∨ 65535 < bad.dataLength) ∧
        good.version ≤ 7 ∧ good.appProcId ≤ 2047 ∧ good.sequenceCount ≤ 16383 ∧ good.dataLength ≤ 65535 ∧
        6 ≤ State.reset.cfg.maxBuf :=
  ⟨⟨8, .data, .notPresent, 2048, .continuation, 16384, 65536⟩, ⟨7, .command, .present, 2047, .unsegmented, 16383, 65535⟩,
    by decide⟩

theorem witness_EnumMappingsAreTotal :
    ∃ h rest t, exec (.hdrDecode [0xFF#8, 0xFF#8, 0xFF#8, 0xFF#8, 0xFF#8, 0xFF#8]) State.reset = .next t ∧
      t.response = some (.ok (.header h rest)) := ⟨_, _, _, rfl, rfl⟩

theorem witness_HeaderRoundTrips :
    (∃ h : PrimaryHeader, h.valid = true ∧ 6 ≤ State.reset.cfg.maxBuf) ∧
      ∃ buf : List Byte, 6 ≤ buf.length ∧ buf.length ≤ State.reset.cfg.maxBuf :=
  ⟨⟨⟨7, .command, .present, 2047, .unsegmented, 16383, 65535⟩, by decide⟩, ⟨[0#8, 1#8, 2#8, 3#8, 4#8, 5#8], by decide⟩⟩

theorem witness_EveryHeaderWordIsLegal :
    ∃ (w : BitVec 48) (h : PrimaryHeader), h.valid = true ∧ (encode (.primaryHeader h)).word = .hdr48 w ∧ headerOfWord w = h :=
  ⟨0xFFFFFFFFFFFF#48, ⟨7, .command, .present, 2047, .unsegmented, 16383, 65535⟩, by decide⟩

theorem witness_CodecOctetsAreTheHeaderWord :
    6 ≤ State.reset.cfg.maxBuf ∧
      PrimaryHeader.valid ⟨7, .command, .present, 2047, .unsegmented, 16383, 65535⟩ = true := by decide

theorem witness_SevenTakesDecodeAHeader :
    ∃ short whole : List Byte, short.length < 6 ∧ short.length ≤ State.reset.cfg.maxBuf ∧ 6 ≤ whole.length ∧
      whole.length ≤ State.reset.cfg.maxBuf :=
  ⟨[0x00#8, 0x00#8, 0xC0#8, 0x00#8, 0x00#8], [0x00#8, 0x00#8, 0xC0#8, 0x00#8, 0x00#8, 0x40#8], by decide⟩

theorem witness_SevenPutsEncodeAHeader :
    PrimaryHeader.valid ⟨0, .command, .present, 683, .unsegmented, 5461, 255⟩ = true ∧
      PrimaryHeader.valid ⟨0, .data, .notPresent, 2048, .continuation, 0, 0⟩ = false ∧ 6 ≤ State.reset.cfg.maxBuf := by decide

/-- A header that announces one octet, with the flag `Present` (V-P7). -/
def oneOctet : PrimaryHeader := ⟨0, .data, .present, 0, .continuation, 0, 0⟩

/-- The same with the flag `NotPresent`. -/
def onePayloadOctet : PrimaryHeader := ⟨0, .data, .notPresent, 0, .continuation, 0, 0⟩

theorem witness_PktParseChecksThenSplits :
    (([] : List Byte).length ≤ State.reset.cfg.maxBuf ∧ ([] : List Byte).length < 6) ∧
    (exec (.hdrDecode [0#8, 0#8, 0#8, 0#8, 0#8, 0#8]) State.reset =
        .next { State.reset with response := some (.ok (.header onePayloadOctet [])) } ∧
      ([] : List Byte).length < onePayloadOctet.dataLength + 1) ∧
    (exec (.hdrDecode [0#8, 0#8, 0#8, 0#8, 0#8, 0#8, 1#8, 2#8]) State.reset =
        .next { State.reset with response := some (.ok (.header onePayloadOctet [1#8, 2#8])) } ∧
      onePayloadOctet.dataLength + 1 < [1#8, 2#8].length) ∧
    (exec (.hdrDecode [0#8, 0#8, 0#8, 0#8, 0#8, 0#8, 1#8]) State.reset =
        .next { State.reset with response := some (.ok (.header onePayloadOctet [1#8])) } ∧
      [1#8].length = onePayloadOctet.dataLength + 1 ∧ onePayloadOctet.secHeaderFlag = .notPresent) ∧
    (∀ cap, exec (.hdrDecode [8#8, 0#8, 0#8, 0#8, 0#8, 0#8, 1#8]) (bound cap) =
        .next { bound cap with response := some (.ok (.header oneOctet [1#8])) } ∧
      [1#8].length = oneOctet.dataLength + 1 ∧ oneOctet.secHeaderFlag = .present) ∧
    fixed2.cfg.cap.shDecode [1#8] = .short ∧ (bound (.constant (.fail ⟨3⟩))).cfg.cap.shDecode [1#8] = .fail ⟨3⟩ ∧
    ((bound (.constant (.ok ⟨[]⟩ 2))).cfg.cap.shDecode [1#8] = .ok ⟨[]⟩ 2 ∧ [1#8].length < 2) ∧
    ((bound (.fixed 1)).cfg.cap.shDecode [1#8] = .ok ⟨[1#8]⟩ 1 ∧ 1 ≤ [1#8].length) :=
  ⟨by decide, ⟨rfl, by decide⟩, ⟨rfl, by decide⟩, ⟨rfl, by decide⟩, fun _ => ⟨rfl, by decide⟩, by decide, by decide, by decide, by decide⟩

theorem witness_UnboundCapabilityFailsTheParse :
    (bound .unbound).cfg.cap = .unbound ∧
    (exec (.hdrDecode [8#8, 0#8, 0#8, 0#8, 0#8, 0#8, 1#8]) (bound .unbound) =
      .next { bound .unbound with response := some (.ok (.header oneOctet [1#8])) }) ∧
    [1#8].length = oneOctet.dataLength + 1 ∧ oneOctet.secHeaderFlag = .present ∧
    (exec (.hdrDecode [0#8, 0#8, 0#8, 0#8, 0#8, 0#8, 1#8]) (bound .unbound) =
      .next { bound .unbound with response := some (.ok (.header onePayloadOctet [1#8])) }) ∧
    [1#8].length = onePayloadOctet.dataLength + 1 ∧ onePayloadOctet.secHeaderFlag = .notPresent :=
  ⟨rfl, rfl, by decide, by decide, rfl, by decide, by decide⟩

theorem witness_PktBuildComputesTheHeader :
    (2047 < 2048 ∨ 16383 < 16384) ∧ (2047 ≤ 2047 ∧ 16383 ≤ 16383) ∧
      ([] : List Byte).length ≤ (bound (.fixed 0)).cfg.maxBuf ∧ [1#8].length ≤ (bound (.fixed 65536)).cfg.maxBuf ∧
      [1#8].length ≤ State.reset.cfg.maxBuf ∧ [1#8].length ≤ (bound (.fixed 65535)).cfg.maxBuf ∧
      (bound (.fixed 0)).cfg.cap.lengthOf (some ⟨[]⟩) + ([] : List Byte).length = 0 ∧
      65536 < (bound (.fixed 65536)).cfg.cap.lengthOf (some ⟨[]⟩) + [1#8].length ∧
      1 ≤ State.reset.cfg.cap.lengthOf none + [1#8].length ∧
      (bound (.fixed 65535)).cfg.cap.lengthOf (some ⟨[]⟩) + [1#8].length ≤ 65536 := by decide

theorem witness_PktToBytesConcatenates :
    ∃ bad absent present : SpacePacket, (bad.header.valid = false ∧ bad.payload.length ≤ small.cfg.maxBuf) ∧
      (absent.header.valid = true ∧ absent.secondary = none ∧
        6 + (small.cfg.cap.octetsOf absent.secondary).length + absent.payload.length ≤ small.cfg.maxBuf) ∧
      present.header.valid = true ∧ present.secondary = some ⟨[1#8, 2#8]⟩ ∧
        6 + (small.cfg.cap.octetsOf present.secondary).length + present.payload.length = small.cfg.maxBuf :=
  ⟨⟨⟨8, .data, .notPresent, 0, .continuation, 0, 0⟩, none, []⟩, ⟨onePayloadOctet, none, [1#8]⟩,
    ⟨oneOctet, some ⟨[1#8, 2#8]⟩, []⟩, by decide⟩

theorem witness_BuiltPacketsAreValid :
    ∃ t p, exec (.pktBuild 2047 .command .unsegmented 16383 none [1#8]) State.reset = .next t ∧
      t.response = some (.ok (.packet p)) := ⟨_, _, rfl, rfl⟩

theorem witness_SerialisedLengthIsSixPlusDataField :
    (PrimaryHeader.valid onePayloadOctet = true ∧
      6 + (small.cfg.cap.octetsOf none).length + [1#8].length ≤ small.cfg.maxBuf) ∧
    SpacePacket.valid small.cfg.cap ⟨⟨0, .data, .present, 0, .continuation, 0, 1⟩, some ⟨[1#8, 2#8]⟩, []⟩ = true ∧
      small.cfg.cap.shLength ⟨[1#8, 2#8]⟩ = (small.cfg.cap.shEncode ⟨[1#8, 2#8]⟩).length ∧ 6 + 1 + 1 ≤ small.cfg.maxBuf := by decide

theorem witness_ParseInvertsToBytes :
    (∃ t p, exec (.pktBuild 0 .data .continuation 0 (some ⟨[0xFF#8, 0xFF#8]⟩) [0xFF#8]) fixed2 = .next t ∧
      t.response = some (.ok (.packet p)) ∧ p.valid fixed2.cfg.cap = true) ∧
    fixed2.cfg.cap.EncodeLaws ⟨[0xFF#8, 0xFF#8]⟩ ∧ 65542 ≤ fixed2.cfg.maxBuf :=
  ⟨⟨_, _, rfl, rfl, by decide⟩, Cap.fixed_encodeLaws ⟨[0xFF#8, 0xFF#8]⟩, by decide⟩

theorem witness_RdLoadSetsTheReadCursor : [1#8].length ≤ State.reset.cfg.maxBuf := by decide

theorem witness_WrReadReturnsTheWrittenOctets :
    (written [true]).wbits.length % 8 ≠ 0 ∧ (written (List.replicate 8 true)).wbits.length % 8 = 0 ∧
      0 < (written (List.replicate 8 true)).wbits.length / 8 := by decide

theorem witness_DecodeInvertsEncode :
    Instr.WellFormed (.primaryHeader ⟨7, .command, .present, 2047, .unsegmented, 16383, 65535⟩) ∧
      Instr.WellFormed (.take 16) ∧ Instr.WellFormed (.put 0 1) := by decide

end Sys2Proof.Tests
end

section
/-! PROOFS. R19: no hidden state. Two runs of an operation are compared by their answers, so one equation says both that the
responses agree and that the refusals do. -/

namespace Sys2Proof.Machine

/-! ## The answer of an operation -/

/-- What the host sees of an operation (R65, R8): the response in a next state, or the refusal. -/
def answerOf : Host.Outcome State Fault Refusal → Host.Outcome (Option Response) Fault Refusal
  | .next s => .next s.response
  | .fault f => .fault f
  | .refused r => .refused r

theorem answerOf_eq_next_iff {o : Host.Outcome State Fault Refusal} {r : Option Response} :
    answerOf o = .next r ↔ ∃ t, o = .next t ∧ t.response = r := by
  cases o <;> simp [answerOf]

theorem answerOf_eq_refused_iff {o : Host.Outcome State Fault Refusal} {q : Refusal} :
    answerOf o = .refused q ↔ o = .refused q := by
  cases o <;> simp [answerOf]

@[simp] theorem answerOf_complete (s : State) (r : Result) : answerOf (complete s r) = .next (some (.ok r)) := rfl

@[simp] theorem answerOf_raiseError (s : State) (e : SphcError) : answerOf (raiseError s e) = .next (some (.error e)) := rfl

/-! ## The shared ends of an operation -/

/-- `finish` answers by the operation's result alone. -/
theorem answerOf_finish_eq {α : Type} (s t : State) (f : α → Result) (r : OpResult α) :
    answerOf (finish s f r) = answerOf (finish t f r) := by
  cases r with
  | done a => rfl
  | raise e => rfl
  | refuse q => rfl

/-- `finishBuffer` reads MAX_BUF besides the operation's result. -/
theorem answerOf_finishBuffer_congr {s t : State} (hcfg : s.cfg = t.cfg) (r : OpResult (List Byte)) :
    answerOf (finishBuffer s r) = answerOf (finishBuffer t r) := by
  cases r with
  | done bs => simp only [finishBuffer, hcfg, apply_ite answerOf, answerOf_complete]
  | raise e => rfl
  | refuse q => rfl

/-- The bound on a presented buffer reads MAX_BUF; what stands behind it decides the rest. -/
theorem answerOf_withinMaxBuf_congr {s t : State} {j k : Host.Outcome State Fault Refusal} (hcfg : s.cfg = t.cfg)
    (buf : List Byte) (hk : answerOf j = answerOf k) :
    answerOf (withinMaxBuf s buf j) = answerOf (withinMaxBuf t buf k) := by
  simp only [withinMaxBuf, hcfg, apply_ite answerOf, hk]

/-! ## What the answer of each operation depends on -/

/-- The five codec operations answer by their operands and the configuration alone (R10, R19). -/
theorem answerOf_exec_congr_of_isCodecOperation {i : Instr} {s t : State} (hi : isCodecOperation i = true)
    (hcfg : s.cfg = t.cfg) : answerOf (exec i s) = answerOf (exec i t) := by
  cases i with
  | hdrDecode buf => exact answerOf_withinMaxBuf_congr hcfg buf (answerOf_finish_eq s t _ _)
  | hdrEncode h => exact answerOf_finishBuffer_congr hcfg _
  | pktParse buf =>
    simp only [exec, execPktParse, hcfg]
    exact answerOf_withinMaxBuf_congr hcfg buf (answerOf_finish_eq s t _ _)
  | pktBuild apid ptype sflags scount sh payload =>
    simp only [exec, execPktBuild, hcfg]
    exact answerOf_withinMaxBuf_congr hcfg payload (answerOf_finish_eq s t _ _)
  | pktToBytes p =>
    simp only [exec, execPktToBytes, hcfg]
    exact answerOf_withinMaxBuf_congr hcfg p.payload (answerOf_finishBuffer_congr hcfg _)
  | take n | put v n | bytePosition | remainingBytes | rdLoad buf | wrClear | wrRead | reserved0 | reservedD | reservedE
  | reservedF | primaryHeader h => exact nomatch hi

/-- Every operation answers by its operands, the configuration and the cursors (R19); each case names the ones it reads. -/
theorem answerOf_exec_congr {i : Instr} {s t : State} (hcfg : s.cfg = t.cfg) (hrbuf : s.rbuf = t.rbuf)
    (hrpos : s.rpos = t.rpos) (hwbits : s.wbits = t.wbits) : answerOf (exec i s) = answerOf (exec i t) := by
  cases i with
  | take n => simp only [exec, execTake, memRead, hrbuf, hrpos, apply_ite answerOf, answerOf_complete, answerOf_raiseError]
  | put v n => simp only [exec, execPut, hcfg, hwbits, apply_ite answerOf, answerOf_complete, answerOf_raiseError]
  | bytePosition => simp only [exec, execBytePosition, hrpos, apply_ite answerOf, answerOf_complete]
  | remainingBytes => simp only [exec, execRemainingBytes, hrbuf, hrpos, apply_ite answerOf, answerOf_complete]
  | rdLoad buf => exact answerOf_withinMaxBuf_congr hcfg buf rfl
  | wrClear => rfl
  | wrRead => simp only [exec, execWrRead, hwbits, apply_ite answerOf, answerOf_complete]
  | reserved0 | reservedD | reservedE | reservedF | primaryHeader h => rfl
  | hdrDecode buf | hdrEncode h | pktParse buf | pktBuild apid ptype sflags scount sh payload | pktToBytes p =>
    exact answerOf_exec_congr_of_isCodecOperation rfl hcfg

/-- Settles O10: the two states give the same answer, by the codec operations' congruence or by the cursors'. -/
theorem noHiddenState : Obligations.NoHiddenState := by
  intro i s t hcfg hreads
  have hanswer : answerOf (exec i s) = answerOf (exec i t) := by
    obtain hi | ⟨hrbuf, hrpos, hwbits⟩ := hreads
    · exact answerOf_exec_congr_of_isCodecOperation hi hcfg
    · exact answerOf_exec_congr hcfg hrbuf hrpos hwbits
  refine ⟨fun s' hs => ?_, fun q hs => ?_⟩
  · exact answerOf_eq_next_iff.mp (hanswer ▸ answerOf_eq_next_iff.mpr ⟨s', hs, rfl⟩)
  · exact answerOf_eq_refused_iff.mp (hanswer ▸ answerOf_eq_refused_iff.mpr hs)

end Sys2Proof.Machine
end

section
/-! PROOFS. R37: which operations write which cursor. Every fact is read off `exec_next`, the list of what an operation that
answers a next state can have done. -/

namespace Sys2Proof.Machine

/-! ## What an operation leaves as it was -/

section Frame

variable {i : Instr} {s t : State}

/-- R20: no operation writes the configuration; what the host still issues is no operation's to take. -/
theorem exec_keeps_cfg_inputs (h : exec i s = .next t) : t.cfg = s.cfg ∧ t.inputs = s.inputs := by
  cases exec_next h with
  | error _ _ eq | pure _ _ eq | take _ _ _ _ _ _ eq | put _ _ _ _ _ _ eq | rdLoad _ _ _ eq | wrClear _ eq =>
    exact eq ▸ ⟨rfl, rfl⟩

/-- R11, R12: only RD_LOAD writes RBUF or takes RPOS back. -/
theorem exec_keeps_rbuf_rpos_le (h : exec i s = .next t) (hload : ∀ buf, i ≠ .rdLoad buf) :
    t.rbuf = s.rbuf ∧ s.rpos ≤ t.rpos := by
  cases exec_next h with
  | take n _ _ _ _ _ eq => exact eq ▸ ⟨rfl, Nat.le_add_right s.rpos n⟩
  | rdLoad buf instr => exact absurd instr (hload buf)
  | error _ _ eq | pure _ _ eq | put _ _ _ _ _ _ eq | wrClear _ eq => exact eq ▸ ⟨rfl, le_rfl⟩

/-- R12: only RD_LOAD and TAKE write RPOS. -/
theorem exec_keeps_rpos (h : exec i s = .next t) (hload : ∀ buf, i ≠ .rdLoad buf) (htake : ∀ n, i ≠ .take n) :
    t.rpos = s.rpos := by
  cases exec_next h with
  | take n _ instr => exact absurd instr (htake n)
  | rdLoad buf instr => exact absurd instr (hload buf)
  | error _ _ eq | pure _ _ eq | put _ _ _ _ _ _ eq | wrClear _ eq => exact eq ▸ rfl

/-- R13: a written bit stays as it is but for WR_CLEAR. -/
theorem exec_wbits_prefix (h : exec i s = .next t) (hclear : i ≠ .wrClear) : s.wbits <+: t.wbits := by
  cases exec_next h with
  | put v n _ _ _ _ eq => exact eq ▸ List.prefix_append s.wbits (valueBits v n)
  | wrClear instr => exact absurd instr hclear
  | error _ _ eq | pure _ _ eq | take _ _ _ _ _ _ eq | rdLoad _ _ _ eq => exact eq ▸ List.prefix_rfl

/-- R13: only WR_CLEAR and PUT write WBITS. -/
theorem exec_keeps_wbits (h : exec i s = .next t) (hclear : i ≠ .wrClear) (hput : ∀ v n, i ≠ .put v n) :
    t.wbits = s.wbits := by
  cases exec_next h with
  | put v n instr => exact absurd instr (hput v n)
  | wrClear instr => exact absurd instr hclear
  | error _ _ eq | pure _ _ eq | take _ _ _ _ _ _ eq | rdLoad _ _ _ eq => exact eq ▸ rfl

/-- R158: an error writes the response alone, since every write to a cursor answers OK. -/
theorem exec_error_frame {e : SphcError} (h : exec i s = .next t) (he : t.response = some (.error e)) :
    t = { s with response := some (.error e) } := by
  cases exec_next h with
  | error _ _ eq =>
    subst eq
    cases he
    rfl
  | pure _ _ eq | take _ _ _ _ _ _ eq | put _ _ _ _ _ _ eq | rdLoad _ _ _ eq | wrClear _ eq => exact nomatch eq ▸ he

/-! ## The idempotent operations -/

/-- R37: an idempotent operation writes the response alone, since the four that write a cursor are not idempotent. -/
theorem exec_frame_of_isIdempotent (hi : isIdempotent i = true) (h : exec i s = .next t) :
    t = { s with response := t.response } := by
  cases exec_next h with
  | error _ _ eq | pure _ _ eq => exact eq ▸ rfl
  | take _ _ instr | put _ _ instr | rdLoad _ instr | wrClear instr => exact nomatch instr ▸ hi

/-- R37: an idempotent operation gives the same again. Its second answer is the first one's, as no operation reads the
response, and the second time too it writes nothing else. -/
theorem exec_again_of_isIdempotent (hi : isIdempotent i = true) (h : exec i s = .next t) : exec i t = .next t := by
  have hframe : t = { s with response := t.response } := exec_frame_of_isIdempotent hi h
  have hanswer : answerOf (exec i s) = answerOf (exec i t) := by
    rw [hframe]
    exact answerOf_exec_congr rfl rfl rfl rfl
  obtain ⟨u, hu, hresponse⟩ := answerOf_eq_next_iff.mp (hanswer ▸ answerOf_eq_next_iff.mpr ⟨t, h, rfl⟩)
  have hut : u = { t with response := u.response } := exec_frame_of_isIdempotent hi hu
  rw [hu, hut, hresponse]

end Frame

/-! ## TAKE and PUT move their cursors -/

/-- R82: a TAKE that succeeds advances RPOS by its bit count, which is at least 1. -/
theorem exec_take_ok_rpos {n : Nat} {s t : State} {r : Result} (h : exec (.take n) s = .next t)
    (hr : t.response = some (.ok r)) : 1 ≤ n ∧ t.rpos = s.rpos + n := by
  cases exec_next h with
  | error _ _ eq => exact nomatch eq ▸ hr
  | pure _ idem => exact nomatch idem
  | take _ _ instr lo _ _ eq =>
    cases instr
    exact eq ▸ ⟨lo, rfl⟩
  | put _ _ instr | rdLoad _ instr | wrClear instr => exact nomatch instr

/-- R85: a PUT that succeeds appends as many bits as its bit count, which is at least 1. -/
theorem exec_put_ok_wbits {v n : Nat} {s t : State} {r : Result} (h : exec (.put v n) s = .next t)
    (hr : t.response = some (.ok r)) : 1 ≤ n ∧ t.wbits = s.wbits ++ valueBits v n := by
  cases exec_next h with
  | error _ _ eq => exact nomatch eq ▸ hr
  | pure _ idem => exact nomatch idem
  | put _ _ instr lo _ _ eq =>
    cases instr
    exact eq ▸ ⟨lo, rfl⟩
  | take _ _ instr | rdLoad _ instr | wrClear instr => exact nomatch instr

/-- Settles O11: the frame of each cursor, the idempotent operations, and the two that move a cursor. -/
theorem onlyFourOperationsWriteTheCursors : Obligations.OnlyFourOperationsWriteTheCursors := by
  refine ⟨fun i s t h => ?_, fun i s t hi h => ?_, fun n s t r h hr => ?_, fun v n s t r h hr => ?_⟩
  · obtain ⟨hcfg, hinputs⟩ := exec_keeps_cfg_inputs h
    exact ⟨hcfg, hinputs, exec_keeps_rbuf_rpos_le h, exec_keeps_rpos h, exec_wbits_prefix h, exec_keeps_wbits h,
      fun _ => exec_error_frame h⟩
  · exact ⟨exec_again_of_isIdempotent hi h, exec_frame_of_isIdempotent hi h⟩
  · obtain ⟨hn, hrpos⟩ := exec_take_ok_rpos h hr
    omega
  · obtain ⟨hn, hwbits⟩ := exec_put_ok_wbits h hr
    have hlength : t.wbits.length = s.wbits.length + n := by simp [hwbits]
    intro heq
    rw [heq] at hlength
    omega

end Sys2Proof.Machine
end

section
/-! PROOFS. R59 and R67: header words and valid headers correspond one to one, and the reserved codes are refused. The word of
a valid header is a positional sum (R51), and the fields of a word are quotients and remainders of its value (R50), so that
each of the two maps undoes the other by arithmetic. -/

namespace Sys2Proof

/-! ## The header format as arithmetic (R50, R51) -/

/-- The fields of a header word as slices of its value, by the columns of R50. -/
theorem headerOfWord_eq (w : BitVec 48) :
    headerOfWord w =
      { version := w.toNat / 2 ^ 45 % 2 ^ 3
        packetType := .ofCode (w.toNat / 2 ^ 44 % 2)
        secHeaderFlag := .ofCode (w.toNat / 2 ^ 43 % 2)
        appProcId := w.toNat / 2 ^ 32 % 2 ^ 11
        sequenceFlags := .ofCode (w.toNat / 2 ^ 30 % 2 ^ 2)
        sequenceCount := w.toNat / 2 ^ 16 % 2 ^ 14
        dataLength := w.toNat % 2 ^ 16 } := by
  simp [headerOfWord, BitVec.extractLsb_toNat, Nat.shiftRight_eq_div_pow]

/-- R51: in the one-word form of a valid header no two fields share a bit, so the disjunctions are sums. -/
theorem wordOfHeader_toNat {h : PrimaryHeader} (hv : h.valid = true) :
    (wordOfHeader h).toNat = h.version * 2 ^ 45 + h.packetType.code * 2 ^ 44 + h.secHeaderFlag.code * 2 ^ 43
      + h.appProcId * 2 ^ 32 + h.sequenceFlags.code * 2 ^ 30 + h.sequenceCount * 2 ^ 16 + h.dataLength := by
  obtain ⟨hversion, hapid, hcount, hlen⟩ := (PrimaryHeader.valid_iff h).mp hv
  have := h.packetType.code_lt
  have := h.secHeaderFlag.code_lt
  have := h.sequenceFlags.code_lt
  have join (a b i : Nat) (hb : b < 2 ^ i) (ha : 2 ^ i ∣ a) : a ||| b = a + b := by
    obtain ⟨c, rfl⟩ := ha
    rw [Nat.two_pow_add_eq_or_of_lt hb]
  rw [wordOfHeader, BitVec.toNat_ofNat]
  simp only [Nat.shiftLeft_eq]
  rw [join (h.version * 2 ^ 45) _ 45 (by omega) (by omega), join _ (h.secHeaderFlag.code * 2 ^ 43) 44 (by omega) (by omega),
    join _ (h.appProcId * 2 ^ 32) 43 (by omega) (by omega), join _ (h.sequenceFlags.code * 2 ^ 30) 32 (by omega) (by omega),
    join _ (h.sequenceCount * 2 ^ 16) 30 (by omega) (by omega), join _ h.dataLength 16 (by omega) (by omega)]
  omega

/-! ## The two maps undo each other (R59) -/

/-- R14, R59: each field of a word is a remainder by its width, so no word is illegal. -/
theorem headerOfWord_valid (w : BitVec 48) : (headerOfWord w).valid = true := by
  rw [PrimaryHeader.valid_iff, headerOfWord_eq]
  dsimp only
  omega

/-- R59: the seven fields of R50 cover all 48 bits, so nothing of a word is lost. -/
@[simp] theorem wordOfHeader_headerOfWord (w : BitVec 48) : wordOfHeader (headerOfWord w) = w := by
  refine BitVec.eq_of_toNat_eq ?_
  rw [wordOfHeader_toNat (headerOfWord_valid w), headerOfWord_eq]
  dsimp only
  rw [PacketType.code_ofCode (by omega), SecHeaderFlag.code_ofCode (by omega), SequenceFlags.code_ofCode (by omega)]
  omega

/-- R59: each field of a valid header stays inside its own columns of R50, so no other field changes it. -/
theorem headerOfWord_wordOfHeader {h : PrimaryHeader} (hv : h.valid = true) : headerOfWord (wordOfHeader h) = h := by
  obtain ⟨hversion, hapid, hcount, hlen⟩ := (PrimaryHeader.valid_iff h).mp hv
  have := h.packetType.code_lt
  have := h.secHeaderFlag.code_lt
  have := h.sequenceFlags.code_lt
  rw [headerOfWord_eq, wordOfHeader_toNat hv, PrimaryHeader.mk.injEq]
  refine ⟨by omega, ?_, ?_, by omega, ?_, by omega, by omega⟩
  · exact (congrArg PacketType.ofCode (by omega)).trans h.packetType.ofCode_code
  · exact (congrArg SecHeaderFlag.ofCode (by omega)).trans h.secHeaderFlag.ofCode_code
  · exact (congrArg SequenceFlags.ofCode (by omega)).trans h.sequenceFlags.ofCode_code

theorem encode_primaryHeader_word_iff {h : PrimaryHeader} {w : BitVec 48} :
    (encode (.primaryHeader h)).word = .hdr48 w ↔ wordOfHeader h = w := by
  simp [encode, Instr.word]

end Sys2Proof

namespace Sys2Proof.Machine

/-- Settles O24: `headerOfWord` and `wordOfHeader` are inverse to each other between the words and the valid headers. -/
theorem everyHeaderWordIsLegal : Obligations.EveryHeaderWordIsLegal := by
  refine ⟨fun w o => ⟨headerOfWord w, rfl, headerOfWord_valid w, ?_, fun h' hv' hw => ?_⟩,
    fun h hv => ⟨wordOfHeader h, rfl, headerOfWord_wordOfHeader hv, fun w' hw' => ?_⟩⟩
  · exact encode_primaryHeader_word_iff.mpr (wordOfHeader_headerOfWord w)
  · rw [← encode_primaryHeader_word_iff.mp hw, headerOfWord_wordOfHeader hv']
  · rw [← hw', wordOfHeader_headerOfWord]

/-- Settles O38: each of the four codes is a row of the decoder's table, and the row's arm is the refusal of R67. -/
theorem reservedCodesAreRefused : Obligations.ReservedCodesAreRefused :=
  ⟨fun _ => ⟨rfl, rfl, rfl, rfl⟩, fun _ => ⟨rfl, rfl, rfl, rfl⟩⟩

end Sys2Proof.Machine
end

section
/-! PROOFS. R82 to R90: the four operations of the Bit Cursor, each said branch by branch. The facts that carry content are the
sum and the bound of a read (R34) and the list of the bits put (R35). -/

namespace Sys2Proof

/-- R84, the other way round: which bit counts are refused. -/
theorem not_legalCount_iff (n : Nat) : ¬ legalCount n = true ↔ n < 1 ∨ 16 < n := by
  rw [legalCount_iff]
  omega

theorem fits_iff (v n : Nat) : fits v n = true ↔ v < 2 ^ n := by simp [fits]

end Sys2Proof

namespace Sys2Proof.Machine

/-! ## TAKE (R82, R84) -/

/-- A read of the buffer is below `2^n` (R34). -/
theorem memRead_lt (s : State) (a n : Nat) : memRead s a n < 2 ^ n := readBits_lt _ _ _

/-- A read of the buffer as R34's sum over the stream bits, each by its octet and its place there (R7). -/
theorem memRead_eq_sum (s : State) (a n : Nat) :
    memRead s a n =
      ∑ k ∈ Finset.range n, ((s.rbuf.getD ((a + k) / 8) 0#8).getLsbD (7 - (a + k) % 8)).toNat * 2 ^ (n - 1 - k) :=
  readBits_eq_sum _ _ _

section Take

variable {n : Nat} {s : State}

theorem exec_take_of_illegal (hn : n < 1 ∨ 16 < n) : exec (.take n) s = .refused .badBitCount :=
  if_neg ((not_legalCount_iff n).mpr hn)

/-- D6: RPOS stays after the error. -/
theorem exec_take_of_short (hn : 1 ≤ n ∧ n ≤ 16) (hshort : 8 * s.rbuf.length < s.rpos + n) :
    exec (.take n) s = .next { s with response := some (.error .insufficientData) } :=
  (if_pos ((legalCount_iff n).mpr hn)).trans (if_pos hshort)

theorem exec_take_of_le (hn : 1 ≤ n ∧ n ≤ 16) (hroom : s.rpos + n ≤ 8 * s.rbuf.length) :
    exec (.take n) s =
      .next { s with rpos := s.rpos + n, response := some (.ok (.int (memRead s s.rpos n))) } :=
  (if_pos ((legalCount_iff n).mpr hn)).trans (if_neg hroom.not_gt)

end Take

/-- Settles O13: the three ends of TAKE, and the value of the last as the read of R34. -/
theorem takeReadsTheNextBits : Obligations.TakeReadsTheNextBits :=
  ⟨fun _ => rfl, fun _ _ => exec_take_of_illegal, fun _ _ lo hi => exec_take_of_short ⟨lo, hi⟩,
    fun n s lo hi hroom =>
      ⟨memRead s s.rpos n, exec_take_of_le ⟨lo, hi⟩ hroom, memRead_lt s s.rpos n, memRead_eq_sum s s.rpos n⟩⟩

/-! ## PUT (R84 to R86) -/

section Put

variable {value n : Nat} {s : State}

theorem exec_put_of_illegal (hn : n < 1 ∨ 16 < n) : exec (.put value n) s = .refused .badBitCount :=
  if_neg ((not_legalCount_iff n).mpr hn)

/-- R85 whether or not the bits have room, since the value is tested first (log entry 14). D6: WBITS stays. -/
theorem exec_put_of_overflow (hn : 1 ≤ n ∧ n ≤ 16) (hvalue : 2 ^ n ≤ value) :
    exec (.put value n) s = .next { s with response := some (.error .fieldOverflow) } :=
  (if_pos ((legalCount_iff n).mpr hn)).trans (if_neg fun hfits => hvalue.not_gt ((fits_iff value n).mp hfits))

theorem exec_put_of_le (hn : 1 ≤ n ∧ n ≤ 16) (hvalue : value < 2 ^ n) (hroom : s.wbits.length + n ≤ 8 * s.cfg.maxBuf) :
    exec (.put value n) s = .next { s with wbits := s.wbits ++ valueBits value n, response := some (.ok .nothing) } :=
  (if_pos ((legalCount_iff n).mpr hn)).trans ((if_pos ((fits_iff value n).mpr hvalue)).trans (if_pos hroom))

end Put

/-- Settles O14: the ends of PUT while there is room, and the bits appended as R35 lists them. -/
theorem putAppendsTheValueBits : Obligations.PutAppendsTheValueBits := by
  refine ⟨fun _ => rfl, fun _ _ _ => exec_put_of_illegal, fun _ _ _ lo hi hvalue _ => exec_put_of_overflow ⟨lo, hi⟩ hvalue,
    fun value n s lo hi hvalue hroom => ?_⟩
  rw [exec_put_of_le ⟨lo, hi⟩ hvalue hroom, valueBits_eq_map]

/-! ## BYTE_POSITION and REMAINING_BYTES (R88 to R90) -/

/-- R12 in octets: a read cursor inside its bounds has consumed at most the whole read buffer. -/
theorem State.Inv.rpos_div_le {s : State} (h : s.Inv) : s.rpos / 8 ≤ s.rbuf.length := by
  obtain ⟨-, hrpos, -⟩ := h
  omega

/-- Settles O15: the test of R90 decides between the two ends, and R12 bounds the result. -/
theorem bytePositionCountsWholeOctets : Obligations.BytePositionCountsWholeOctets :=
  ⟨fun _ => rfl, fun _ hunaligned => if_neg hunaligned, fun _ haligned => if_pos haligned, fun _ hinv _ => hinv.rpos_div_le⟩

/-- Settles O16: the test of R90 decides between the two ends, and the octets handed off are the buffer past the cursor. -/
theorem remainingBytesHandsOffTheRest : Obligations.RemainingBytesHandsOffTheRest :=
  ⟨fun _ => rfl, fun _ hunaligned => if_neg hunaligned,
    fun s haligned => ⟨s.rbuf.drop (s.rpos / 8), if_pos haligned, rfl, List.length_drop⟩⟩

end Sys2Proof.Machine
end

section
/-! PROOFS. R101 to R107: the Primary Header Codec. Six octets are read and written through their header word (R7): HDR_DECODE
gives the fields of the word, every valid header is the fields of such a word, and HDR_ENCODE gives the word's octets back, so
that both round trips are those of words and headers (R59). -/

namespace Sys2Proof.Machine

/-! ## HDR_DECODE (R101, R102) -/

section Decode

variable {buf : List Byte} {s : State}

theorem exec_hdrDecode_of_short (hshort : buf.length < 6) (hmax : buf.length ≤ s.cfg.maxBuf) :
    exec (.hdrDecode buf) s = .next { s with response := some (.error .insufficientData) } :=
  (withinMaxBuf_of_le _ hmax).trans (congrArg (finish s _) (if_pos hshort))

theorem exec_hdrDecode_of_le (hlen : 6 ≤ buf.length) (hmax : buf.length ≤ s.cfg.maxBuf) :
    exec (.hdrDecode buf) s =
      .next { s with response := some (.ok (.header (headerOfOctets buf) (buf.drop 6))) } :=
  (withinMaxBuf_of_le _ hmax).trans (congrArg (finish s _) (if_neg hlen.not_gt))

/-- The header of an OK response to HDR_DECODE is the one of R101. -/
theorem exec_hdrDecode_ok_header {rest : List Byte} {h : PrimaryHeader} {t : State} (hexec : exec (.hdrDecode buf) s = .next t)
    (hresponse : t.response = some (.ok (.header h rest))) : h = headerOfOctets buf := by
  obtain ⟨hmax, -⟩ := withinMaxBuf_next hexec
  rcases Nat.lt_or_ge buf.length 6 with hshort | hlen
  · cases (exec_hdrDecode_of_short hshort hmax).symm.trans hexec
    cases hresponse
  · cases (exec_hdrDecode_of_le hlen hmax).symm.trans hexec
    cases hresponse
    rfl

end Decode

/-- R102: a field read from `k` bits is below `2^k`, so no octets make an invalid header. -/
theorem headerOfOctets_valid (buf : List Byte) : (headerOfOctets buf).valid = true := by
  have hread (a n : Nat) : bitsOf buf a n ≤ 2 ^ n - 1 := Nat.le_sub_one_of_lt (readBits_lt _ _ _)
  exact (PrimaryHeader.valid_iff _).mpr ⟨hread 0 3, hread 5 11, hread 18 14, hread 32 16⟩

/-! ## HDR_ENCODE (R104, R105) -/

@[simp] theorem octetsOfHeader_length (h : PrimaryHeader) : (octetsOfHeader h).length = 6 := rfl

section Encode

variable {h : RawHeader} {s : State}

theorem exec_hdrEncode_of_valid (hv : h.valid = true) (hmax : 6 ≤ s.cfg.maxBuf) :
    exec (.hdrEncode h) s = .next { s with response := some (.ok (.bytes (octetsOfHeader h))) } :=
  (congrArg (finishBuffer s) (if_pos hv)).trans (finishBuffer_done_of_le hmax)

/-- R105: no octet is formed, whatever MAX_BUF admits. -/
theorem exec_hdrEncode_of_not_valid (hv : ¬ h.valid = true) :
    exec (.hdrEncode h) s = .next { s with response := some (.error .fieldOverflow) } :=
  congrArg (finishBuffer s) (if_neg hv)

end Encode

theorem slice_lt (v hi lo : Nat) : slice v hi lo < 2 ^ (hi - lo + 1) := Nat.mod_lt _ (Nat.two_pow_pos _)

/-- R104: in range, the fields packed into octet 0 do not run out of it. -/
theorem headerOctet0_lt {h : PrimaryHeader} (hversion : h.version ≤ 7) :
    h.version <<< 5 ||| h.packetType.code <<< 4 ||| h.secHeaderFlag.code <<< 3 ||| slice h.appProcId 10 8 < 2 ^ 8 := by
  have := h.packetType.code_lt
  have := h.secHeaderFlag.code_lt
  have := slice_lt h.appProcId 10 8
  refine Nat.or_lt_two_pow (Nat.or_lt_two_pow (Nat.or_lt_two_pow ?_ ?_) ?_) ?_ <;> omega

/-- R104: the fields packed into octet 2 do not run out of it. -/
theorem headerOctet2_lt (h : PrimaryHeader) : h.sequenceFlags.code <<< 6 ||| slice h.sequenceCount 13 8 < 2 ^ 8 := by
  have := h.sequenceFlags.code_lt
  have := slice_lt h.sequenceCount 13 8
  refine Nat.or_lt_two_pow ?_ ?_ <;> omega

/-! ## The codec by the header word (R7, R50, R51) -/

/-- R50: the seven stream-bit reads are the fields of the header word. -/
theorem headerOfOctets_eq_headerOfWord (b0 b1 b2 b3 b4 b5 : Byte) (rest : List Byte) :
    headerOfOctets (b0 :: b1 :: b2 :: b3 :: b4 :: b5 :: rest) = headerOfWord (headerWord b0 b1 b2 b3 b4 b5) := by
  have bits (a n : Nat) (h : a + n ≤ 48) := bitsOf_headerWord b0 b1 b2 b3 b4 b5 rest h
  rw [headerOfOctets, headerOfWord_eq, bits 0 3 (by decide), bits 3 1 (by decide), bits 4 1 (by decide), bits 5 11 (by decide),
    bits 16 2 (by decide), bits 18 14 (by decide), bits 32 16 (by decide)]
  simp

/-- R51: HDR_ENCODE of the fields of a header word writes the octets of the word. -/
theorem octetsOfHeader_headerOfWord (b0 b1 b2 b3 b4 b5 : Byte) :
    octetsOfHeader (headerOfWord (headerWord b0 b1 b2 b3 b4 b5)) = [b0, b1, b2, b3, b4, b5] := by
  have hv := headerOfWord_valid (headerWord b0 b1 b2 b3 b4 b5)
  rw [← octetsOfPuts_eq_octetsOfHeader _ hv, octetsOfPuts, putBits_eq_valueBits _ hv, ← wordOfHeader_toNat hv,
    wordOfHeader_headerOfWord, packBytes_valueBits _ 6, headerWord_toNat]
  have := b0.isLt
  have := b1.isLt
  have := b2.isLt
  have := b3.isLt
  have := b4.isLt
  have := b5.isLt
  simp only [List.range, List.range.loop, List.map_cons, List.map_nil, List.cons.injEq, and_true]
  refine ⟨?_, ?_, ?_, ?_, ?_, ?_⟩ <;> refine BitVec.eq_of_toNat_eq ?_ <;> rw [BitVec.toNat_ofNat] <;> omega

/-- Every 48-bit word is the header word of six octets. -/
theorem exists_headerWord_eq (w : BitVec 48) : ∃ b0 b1 b2 b3 b4 b5 : Byte, headerWord b0 b1 b2 b3 b4 b5 = w := by
  refine ⟨.ofNat 8 (w.toNat / 2 ^ 40), .ofNat 8 (w.toNat / 2 ^ 32), .ofNat 8 (w.toNat / 2 ^ 24), .ofNat 8 (w.toNat / 2 ^ 16),
    .ofNat 8 (w.toNat / 2 ^ 8), .ofNat 8 w.toNat, BitVec.eq_of_toNat_eq ?_⟩
  simp only [headerWord_toNat, BitVec.toNat_ofNat]
  omega

/-- R59 in octets: every valid header is the fields of some six octets. -/
theorem PrimaryHeader.exists_headerWord {h : PrimaryHeader} (hv : h.valid = true) :
    ∃ b0 b1 b2 b3 b4 b5 : Byte, headerOfWord (headerWord b0 b1 b2 b3 b4 b5) = h := by
  obtain ⟨b0, b1, b2, b3, b4, b5, hw⟩ := exists_headerWord_eq (wordOfHeader h)
  exact ⟨b0, b1, b2, b3, b4, b5, hw ▸ headerOfWord_wordOfHeader hv⟩

/-! ## The two round trips (R107) -/

/-- R107: the octets of a valid header read as that header. -/
theorem headerOfOctets_octetsOfHeader {h : PrimaryHeader} (hv : h.valid = true) : headerOfOctets (octetsOfHeader h) = h := by
  obtain ⟨b0, b1, b2, b3, b4, b5, rfl⟩ := PrimaryHeader.exists_headerWord hv
  rw [octetsOfHeader_headerOfWord, headerOfOctets_eq_headerOfWord]

theorem exists_eq_six_octets_append {buf : List Byte} (hlen : 6 ≤ buf.length) :
    ∃ b0 b1 b2 b3 b4 b5 rest, buf = b0 :: b1 :: b2 :: b3 :: b4 :: b5 :: rest := by
  obtain _ | ⟨b0, _ | ⟨b1, _ | ⟨b2, _ | ⟨b3, _ | ⟨b4, _ | ⟨b5, rest⟩⟩⟩⟩⟩⟩ := buf
  case cons.cons.cons.cons.cons.cons => exact ⟨b0, b1, b2, b3, b4, b5, rest, rfl⟩
  all_goals exact absurd hlen (by simp)

/-- R107: the header read from a buffer is written as the buffer's first six octets. -/
theorem octetsOfHeader_headerOfOctets {buf : List Byte} (hlen : 6 ≤ buf.length) :
    octetsOfHeader (headerOfOctets buf) = buf.take 6 := by
  obtain ⟨b0, b1, b2, b3, b4, b5, rest, rfl⟩ := exists_eq_six_octets_append hlen
  rw [headerOfOctets_eq_headerOfWord, octetsOfHeader_headerOfWord]
  rfl

/-- Settles O23: each operation returns its pure result, and the pure results are inverse to each other. -/
theorem headerRoundTrips : Obligations.HeaderRoundTrips := by
  refine ⟨fun h s hv hmax => ⟨octetsOfHeader h, _, exec_hdrEncode_of_valid hv hmax, rfl, rfl, ?_⟩,
    fun buf s hlen hmax =>
      ⟨headerOfOctets buf, _, exec_hdrDecode_of_le hlen hmax, rfl, headerOfOctets_valid buf, ?_⟩⟩
  · rw [exec_hdrDecode_of_le (by simp) (by simpa using hmax), headerOfOctets_octetsOfHeader hv]
    rfl
  · rw [exec_hdrEncode_of_valid (headerOfOctets_valid buf), octetsOfHeader_headerOfOctets hlen]
    exact hlen.trans hmax

/-! ## The operations octet by octet, and the enum mappings -/

/-- Settles O20: the header read as stream bits is the one of R52's lines, whatever follows the six octets. -/
theorem hdrDecodeReadsTheSevenFields : Obligations.HdrDecodeReadsTheSevenFields := by
  refine ⟨fun _ => rfl, fun _ _ => exec_hdrDecode_of_short, fun b0 b1 b2 b3 b4 b5 rest s hmax =>
    ⟨headerOfMasks b0 b1 b2 b3 b4 b5, ?_, rfl, headerOfMasks_eq_headerOfOctets b0 b1 b2 b3 b4 b5 []⟩⟩
  rw [exec_hdrDecode_of_le (by simp) (by simp; omega), ← headerOfMasks_eq_headerOfOctets]
  rfl

/-- Settles O21: R14's ranges decide between the two ends, and in range no packed octet exceeds eight bits. -/
theorem hdrEncodeFormsTheSixOctets : Obligations.HdrEncodeFormsTheSixOctets := by
  refine ⟨fun _ => rfl, fun h s hout => exec_hdrEncode_of_not_valid ?_, fun h s hversion hapid hcount hlen hmax =>
    ⟨_, _, _, _, _, _, exec_hdrEncode_of_valid ((PrimaryHeader.valid_iff h).mpr ⟨hversion, hapid, hcount, hlen⟩) hmax,
      Nat.mod_eq_of_lt (headerOctet0_lt hversion), Nat.mod_eq_of_lt (slice_lt _ 7 0),
      Nat.mod_eq_of_lt (headerOctet2_lt h), Nat.mod_eq_of_lt (slice_lt _ 7 0),
      Nat.mod_eq_of_lt (slice_lt _ 15 8), Nat.mod_eq_of_lt (slice_lt _ 7 0)⟩⟩
  rw [PrimaryHeader.valid_iff]
  omega

/-- Settles O22: the table of R102, its inverses, and the range of every header read. -/
theorem enumMappingsAreTotal : Obligations.EnumMappingsAreTotal :=
  ⟨rfl, rfl, rfl, rfl, rfl, rfl, rfl, rfl, fun x => ⟨x.ofCode_code, x.code_lt⟩, fun x => ⟨x.ofCode_code, x.code_lt⟩,
    fun x => ⟨x.ofCode_code, x.code_lt⟩, fun _ hc => ⟨PacketType.code_ofCode hc, SecHeaderFlag.code_ofCode hc⟩,
    fun _ => SequenceFlags.code_ofCode, fun buf _ _ _ _ hexec hresponse =>
      exec_hdrDecode_ok_header hexec hresponse ▸ (PrimaryHeader.valid_iff _).mp (headerOfOctets_valid buf)⟩

end Sys2Proof.Machine
end

section
/-! PROOFS. R121 to R132: the frame marshaller. Each of its three operations is a function of its operands and the capability,
between the tests against MAX_BUF; the lemmas say those functions branch by branch. The round trip (R132) is one of the
functions: the header comes back by R107, the length check passes by law 1 of R21, the secondary header comes back by law 2. -/

namespace Sys2Proof

/-! ## The optional secondary header (R16, R21) -/

theorem SecHeaderFlag.ofOption_eq_present_iff (sh : Option SecHeader) :
    SecHeaderFlag.ofOption sh = .present ↔ sh.isSome = true := by
  cases sh <;> simp [SecHeaderFlag.ofOption]

/-- Law 1 of R21: a lawful secondary header is serialised to as many octets as its length counts. -/
theorem Cap.octetsOf_length {cap : Cap} {sh : Option SecHeader} (hlaws : ∀ x, sh = some x → cap.EncodeLaws x) :
    (cap.octetsOf sh).length = cap.lengthOf sh := by
  cases sh with
  | none => rfl
  | some x =>
    obtain ⟨hlength, -⟩ := hlaws x rfl
    exact hlength.symm

end Sys2Proof

namespace Sys2Proof.Machine

/-! ## PKT_PARSE (R121 to R124) -/

section DataField

variable {cap : Cap} {h : PrimaryHeader} {rest : List Byte} {sh : SecHeader} {k : Nat}

theorem packetOfDataField_of_notPresent (hflag : h.secHeaderFlag = .notPresent) :
    packetOfDataField cap h rest = .done ⟨h, none, rest⟩ := by
  simp only [packetOfDataField, hflag]

theorem packetOfDataField_of_short (hflag : h.secHeaderFlag = .present) (hdecode : cap.shDecode rest = .short) :
    packetOfDataField cap h rest = .raise .truncatedPacket := by
  simp only [packetOfDataField, hflag, hdecode]

theorem packetOfDataField_of_fail {e : MissionError} (hflag : h.secHeaderFlag = .present)
    (hdecode : cap.shDecode rest = .fail e) :
    packetOfDataField cap h rest = .raise (.secondaryHeaderDecodeFailed e) := by
  simp only [packetOfDataField, hflag, hdecode]

/-- R123: a capability that claims more octets than it was given. -/
theorem packetOfDataField_of_ok_of_lt (hflag : h.secHeaderFlag = .present) (hdecode : cap.shDecode rest = .ok sh k)
    (hk : rest.length < k) : packetOfDataField cap h rest = .raise .truncatedPacket := by
  simp only [packetOfDataField, hflag, hdecode, if_pos hk]

theorem packetOfDataField_of_ok_of_le (hflag : h.secHeaderFlag = .present) (hdecode : cap.shDecode rest = .ok sh k)
    (hk : k ≤ rest.length) : packetOfDataField cap h rest = .done ⟨h, some sh, rest.drop k⟩ := by
  simp only [packetOfDataField, hflag, hdecode, if_neg hk.not_gt]

end DataField

section Parse

variable {cap : Cap} {buf rest : List Byte} {h : PrimaryHeader} {s : State}

theorem packetParse_of_length_lt (hshort : buf.length < 6) : packetParse cap buf = .raise .insufficientData := by
  simp only [packetParse, headerDecode, if_pos hshort]

/-- R122: fewer octets than the header declares. -/
theorem packetParse_of_rest_lt (hdecode : headerDecode buf = .done (h, rest)) (hlt : rest.length < h.dataLength + 1) :
    packetParse cap buf = .raise .truncatedPacket := by
  simp only [packetParse, hdecode, if_pos hlt]

/-- R124: more octets than the header declares. -/
theorem packetParse_of_rest_gt (hdecode : headerDecode buf = .done (h, rest)) (hgt : h.dataLength + 1 < rest.length) :
    packetParse cap buf = .refuse .bufferLongerThanPacket := by
  simp only [packetParse, hdecode, if_neg hgt.le.not_gt, if_pos hgt]

theorem packetParse_of_rest_eq (hdecode : headerDecode buf = .done (h, rest)) (heq : rest.length = h.dataLength + 1) :
    packetParse cap buf = packetOfDataField cap h rest := by
  simp only [packetParse, hdecode, if_neg heq.not_lt, if_neg heq.not_gt]

theorem exec_pktParse_of_le (hmax : buf.length ≤ s.cfg.maxBuf) :
    exec (.pktParse buf) s = finish s .packet (packetParse s.cfg.cap buf) := withinMaxBuf_of_le _ hmax

/-- The header and the rest of an OK response to HDR_DECODE are those PKT_PARSE works with. -/
theorem headerDecode_of_exec_hdrDecode
    (hexec : exec (.hdrDecode buf) s = .next { s with response := some (.ok (.header h rest)) }) :
    headerDecode buf = .done (h, rest) := by
  obtain ⟨-, hfinish⟩ := withinMaxBuf_next hexec
  obtain ⟨a, hdone, hstate⟩ | ⟨e, -, hstate⟩ := finish_next hfinish
  · cases congrArg State.response hstate
    exact hdone
  · exact nomatch congrArg State.response hstate

end Parse

/-- Settles O28: the tests of R121 in their order, then the ends of the part behind the length check. -/
theorem pktParseChecksThenSplits : Obligations.PktParseChecksThenSplits := by
  refine ⟨fun _ => rfl, fun buf s hmax hshort => ?_, fun buf rest h s hmax hexec => ?_⟩ <;> rw [exec_pktParse_of_le hmax]
  · exact congrArg (finish s _) (packetParse_of_length_lt hshort)
  · have hdecode := headerDecode_of_exec_hdrDecode hexec
    refine ⟨fun hlt => ?_, fun hgt => ?_, fun hlen hflag => ?_, fun hlen hflag hsh => ?_, fun e hlen hflag hsh => ?_,
      fun sh k hlen hflag hsh hk => ?_, fun sh k hlen hflag hsh hk => ?_⟩
    · exact congrArg (finish s _) (packetParse_of_rest_lt hdecode hlt)
    · exact congrArg (finish s _) (packetParse_of_rest_gt hdecode hgt)
    all_goals rw [packetParse_of_rest_eq hdecode hlen]
    · exact congrArg (finish s _) (packetOfDataField_of_notPresent hflag)
    · exact congrArg (finish s _) (packetOfDataField_of_short hflag hsh)
    · exact congrArg (finish s _) (packetOfDataField_of_fail hflag hsh)
    · exact congrArg (finish s _) (packetOfDataField_of_ok_of_lt hflag hsh hk)
    · exact congrArg (finish s _) (packetOfDataField_of_ok_of_le hflag hsh hk)

/-! ## PKT_BUILD (R126 to R128) -/

section Build

variable {cap : Cap} {apid : Nat} {ptype : PacketType} {sflags : SequenceFlags} {scount : Nat} {sh : Option SecHeader}
  {payload : List Byte} {s : State}

theorem packetBuild_of_outOfRange (hout : 2047 < apid ∨ 16383 < scount) :
    packetBuild cap apid ptype sflags scount sh payload = .raise .fieldOutOfRange := if_pos hout

/-- In range, the size of the Packet Data Field decides between the three ends. -/
theorem packetBuild_of_inRange (hapid : apid ≤ 2047) (hscount : scount ≤ 16383) :
    packetBuild cap apid ptype sflags scount sh payload =
      if cap.lengthOf sh + payload.length = 0 then .raise .emptyDataField
      else if 65536 < cap.lengthOf sh + payload.length then .raise .payloadTooLarge
      else .done ⟨⟨0, ptype, .ofOption sh, apid, sflags, scount, cap.lengthOf sh + payload.length - 1⟩, sh, payload⟩ :=
  if_neg (by omega)

theorem packetBuild_of_empty (hapid : apid ≤ 2047) (hscount : scount ≤ 16383)
    (hempty : cap.lengthOf sh + payload.length = 0) :
    packetBuild cap apid ptype sflags scount sh payload = .raise .emptyDataField :=
  (packetBuild_of_inRange hapid hscount).trans (if_pos hempty)

theorem packetBuild_of_tooLarge (hapid : apid ≤ 2047) (hscount : scount ≤ 16383)
    (hlarge : 65536 < cap.lengthOf sh + payload.length) :
    packetBuild cap apid ptype sflags scount sh payload = .raise .payloadTooLarge :=
  (packetBuild_of_inRange hapid hscount).trans ((if_neg (by omega)).trans (if_pos hlarge))

theorem packetBuild_of_le (hapid : apid ≤ 2047) (hscount : scount ≤ 16383)
    (hlo : 1 ≤ cap.lengthOf sh + payload.length) (hhi : cap.lengthOf sh + payload.length ≤ 65536) :
    packetBuild cap apid ptype sflags scount sh payload =
      .done ⟨⟨0, ptype, .ofOption sh, apid, sflags, scount, cap.lengthOf sh + payload.length - 1⟩, sh, payload⟩ :=
  (packetBuild_of_inRange hapid hscount).trans ((if_neg (by omega)).trans (if_neg hhi.not_gt))

/-- R128: a built packet is valid and carries its parts as given; the error branches build none. -/
theorem packetBuild_done {p : SpacePacket} (hbuild : packetBuild cap apid ptype sflags scount sh payload = .done p) :
    p.valid cap = true ∧ p.secondary = sh ∧ p.payload = payload := by
  by_cases hrange : apid ≤ 2047 ∧ scount ≤ 16383
  · obtain ⟨hapid, hscount⟩ := hrange
    rw [packetBuild_of_inRange hapid hscount] at hbuild
    split_ifs at hbuild with hempty hlarge
    cases hbuild
    refine ⟨(SpacePacket.valid_iff cap _).mpr ⟨(PrimaryHeader.valid_iff _).mpr ⟨?_, ?_, ?_, ?_⟩, rfl, ?_⟩, rfl, rfl⟩ <;>
      dsimp only <;> omega
  · rw [packetBuild_of_outOfRange (by omega)] at hbuild
    exact nomatch hbuild

theorem exec_pktBuild_of_le (hmax : payload.length ≤ s.cfg.maxBuf) :
    exec (.pktBuild apid ptype sflags scount sh payload) s =
      finish s .packet (packetBuild s.cfg.cap apid ptype sflags scount sh payload) := withinMaxBuf_of_le _ hmax

/-- PKT_BUILD answers OK with the packet it builds, and the response is all it writes. -/
theorem exec_pktBuild_ok_packet {t : State} {p : SpacePacket}
    (hexec : exec (.pktBuild apid ptype sflags scount sh payload) s = .next t)
    (hresponse : t.response = some (.ok (.packet p))) :
    packetBuild s.cfg.cap apid ptype sflags scount sh payload = .done p ∧
      t = { s with response := some (.ok (.packet p)) } := by
  obtain ⟨-, hfinish⟩ := withinMaxBuf_next hexec
  obtain ⟨a, hdone, rfl⟩ | ⟨e, -, rfl⟩ := finish_next hfinish
  · cases hresponse
    exact ⟨hdone, rfl⟩
  · exact nomatch hresponse

end Build

/-- Settles O30: the tests of R126 in their order, and the packet built by the last branch. -/
theorem pktBuildComputesTheHeader : Obligations.PktBuildComputesTheHeader := by
  refine ⟨fun _ => rfl, fun _ _ _ _ _ _ s hmax hout => ?_, fun _ _ _ _ _ _ s hmax hapid hscount hempty => ?_,
    fun _ _ _ _ _ _ s hmax hapid hscount hlarge => ?_, fun _ _ _ _ sh _ s hmax hapid hscount hlo hhi => ?_⟩ <;>
    rw [exec_pktBuild_of_le hmax]
  · exact congrArg (finish s _) (packetBuild_of_outOfRange hout)
  · exact congrArg (finish s _) (packetBuild_of_empty hapid hscount hempty)
  · exact congrArg (finish s _) (packetBuild_of_tooLarge hapid hscount hlarge)
  · exact ⟨_, congrArg (finish s _) (packetBuild_of_le hapid hscount hlo hhi), rfl, rfl,
      SecHeaderFlag.ofOption_eq_present_iff sh, rfl, rfl, rfl, rfl⟩

/-! ## PKT_TO_BYTES (R129, R131) -/

section ToBytes

variable {cap : Cap} {p : SpacePacket} {s : State}

theorem packetToBytes_of_valid (hv : p.header.valid = true) :
    packetToBytes cap p = .done (octetsOfHeader p.header ++ cap.octetsOf p.secondary ++ p.payload) := by
  have hencode : headerEncode p.header = .done (octetsOfHeader p.header) := if_pos hv
  simp only [packetToBytes, hencode]

theorem packetToBytes_of_not_valid (hv : ¬ p.header.valid = true) : packetToBytes cap p = .raise .fieldOverflow := by
  have hencode : headerEncode p.header = .raise .fieldOverflow := if_neg hv
  simp only [packetToBytes, hencode]

/-- R130: the length of a serialised packet. -/
theorem serialised_length (cap : Cap) (p : SpacePacket) :
    (octetsOfHeader p.header ++ cap.octetsOf p.secondary ++ p.payload).length =
      6 + (cap.octetsOf p.secondary).length + p.payload.length := by
  rw [List.length_append, List.length_append, octetsOfHeader_length]

theorem exec_pktToBytes_of_not_valid (hv : ¬ p.header.valid = true) (hmax : p.payload.length ≤ s.cfg.maxBuf) :
    exec (.pktToBytes p) s = .next { s with response := some (.error .fieldOverflow) } :=
  (withinMaxBuf_of_le _ hmax).trans (congrArg (finishBuffer s) (packetToBytes_of_not_valid hv))

/-- The bound on the result is the stronger one: the payload is a part of it. -/
theorem exec_pktToBytes_of_valid (hv : p.header.valid = true)
    (hmax : 6 + (s.cfg.cap.octetsOf p.secondary).length + p.payload.length ≤ s.cfg.maxBuf) :
    exec (.pktToBytes p) s = .next { s with
      response := some (.ok (.bytes (octetsOfHeader p.header ++ s.cfg.cap.octetsOf p.secondary ++ p.payload))) } := by
  calc exec (.pktToBytes p) s
      = finishBuffer s (packetToBytes s.cfg.cap p) := withinMaxBuf_of_le _ (by omega)
    _ = finishBuffer s (.done _) := congrArg (finishBuffer s) (packetToBytes_of_valid hv)
    _ = _ := finishBuffer_done_of_le ((serialised_length s.cfg.cap p).trans_le hmax)

end ToBytes

/-- Settles O31: R14's ranges decide between the two ends, and the header's octets are those of HDR_ENCODE. -/
theorem pktToBytesConcatenates : Obligations.PktToBytesConcatenates := by
  refine ⟨fun _ => rfl, fun p s hv hmax => exec_pktToBytes_of_not_valid (by simp [hv]) hmax, fun p s hv hmax =>
    ⟨octetsOfHeader p.header, exec_hdrEncode_of_valid hv (by omega), octetsOfHeader_length _, fun hnone => ?_,
      fun sh hsome => ?_⟩⟩ <;> rw [exec_pktToBytes_of_valid hv hmax]
  · simp [hnone, Cap.octetsOf]
  · simp [hsome, Cap.octetsOf]

/-! ## The round trip (R132) -/

section RoundTrip

variable {cap : Cap}

/-- R107 with octets behind the header: HDR_DECODE reads the first six alone. -/
theorem headerDecode_octetsOfHeader_append {h : PrimaryHeader} (hv : h.valid = true) (rest : List Byte) :
    headerDecode (octetsOfHeader h ++ rest) = .done (h, rest) := by
  have hheader : headerOfOctets (octetsOfHeader h ++ rest) = h := by
    obtain ⟨b0, b1, b2, b3, b4, b5, rfl⟩ := PrimaryHeader.exists_headerWord hv
    rw [octetsOfHeader_headerOfWord]
    exact headerOfOctets_eq_headerOfWord b0 b1 b2 b3 b4 b5 rest
  have hlen : ¬ (octetsOfHeader h ++ rest).length < Config.hdrOctets := by simp
  rw [headerDecode, if_neg hlen, hheader]
  rfl

/-- Law 2 of R21: the octets of a lawful secondary header are taken back off the Packet Data Field. -/
theorem packetOfDataField_octetsOf_append {h : PrimaryHeader} {sh : Option SecHeader}
    (hflag : h.secHeaderFlag = .ofOption sh) (hlaws : ∀ x, sh = some x → cap.EncodeLaws x) (payload : List Byte) :
    packetOfDataField cap h (cap.octetsOf sh ++ payload) = .done ⟨h, sh, payload⟩ := by
  cases sh with
  | none => exact packetOfDataField_of_notPresent hflag
  | some x =>
    obtain ⟨-, hdecode⟩ := hlaws x rfl
    have hk : (cap.shEncode x).length ≤ (cap.shEncode x ++ payload).length := by simp
    refine (packetOfDataField_of_ok_of_le hflag (hdecode payload) hk).trans ?_
    rw [List.drop_left]

variable {p : SpacePacket} (hp : p.valid cap = true) (hlaws : ∀ x, p.secondary = some x → cap.EncodeLaws x)
include hp hlaws

/-- R16 and law 1 of R21: the octets behind the header are as many as it declares. -/
theorem dataField_length : (cap.octetsOf p.secondary ++ p.payload).length = p.header.dataLength + 1 := by
  obtain ⟨-, -, hlength⟩ := (SpacePacket.valid_iff cap p).mp hp
  rw [List.length_append, Cap.octetsOf_length hlaws, hlength]

/-- R132 of the two functions: the header by R107, the length check by law 1, the secondary header by law 2. -/
theorem packetParse_octetsOfPacket :
    packetParse cap (octetsOfHeader p.header ++ cap.octetsOf p.secondary ++ p.payload) = .done p := by
  obtain ⟨hv, hflag, -⟩ := (SpacePacket.valid_iff cap p).mp hp
  rw [List.append_assoc]
  calc packetParse cap (octetsOfHeader p.header ++ (cap.octetsOf p.secondary ++ p.payload))
      = packetOfDataField cap p.header (cap.octetsOf p.secondary ++ p.payload) :=
        packetParse_of_rest_eq (headerDecode_octetsOfHeader_append hv _) (dataField_length hp hlaws)
    _ = .done p := packetOfDataField_octetsOf_append hflag hlaws p.payload

end RoundTrip

/-- R132 of the two operations, the second in the state the first leaves: a legal packet is at most 65542 octets. -/
theorem exec_pktParse_exec_pktToBytes {s : State} {p : SpacePacket} (hp : p.valid s.cfg.cap = true)
    (hlaws : ∀ x, p.secondary = some x → s.cfg.cap.EncodeLaws x) (hmax : 65542 ≤ s.cfg.maxBuf) :
    ∃ b u, exec (.pktToBytes p) s = .next u ∧ u = { s with response := some (.ok (.bytes b)) } ∧
      exec (.pktParse b) u = .next { s with response := some (.ok (.packet p)) } := by
  obtain ⟨hv, -, -⟩ := (SpacePacket.valid_iff s.cfg.cap p).mp hp
  obtain ⟨-, -, -, hdataLength⟩ := (PrimaryHeader.valid_iff p.header).mp hv
  have hfield := dataField_length hp hlaws
  rw [List.length_append] at hfield
  have hlen : 6 + (s.cfg.cap.octetsOf p.secondary).length + p.payload.length ≤ s.cfg.maxBuf := by omega
  refine ⟨_, _, exec_pktToBytes_of_valid hv hlen, rfl, ?_⟩
  exact (exec_pktParse_of_le ((serialised_length _ p).trans_le hlen)).trans
    (congrArg (finish _ _) (packetParse_octetsOfPacket hp hlaws))

/-- Settles O34: a valid packet comes back, and a packet PKT_BUILD returns is valid and stands in a state that differs from
the one before in the response alone. -/
theorem parseInvertsToBytes : Obligations.ParseInvertsToBytes := by
  refine ⟨fun apid ptype sflags scount sh payload s t p hexec hresponse hlaws hmax => ?_,
    fun s p => exec_pktParse_exec_pktToBytes⟩
  obtain ⟨hbuild, rfl⟩ := exec_pktBuild_ok_packet hexec hresponse
  obtain ⟨hp, hsecondary, -⟩ := packetBuild_done hbuild
  exact exec_pktParse_exec_pktToBytes hp (hsecondary ▸ hlaws) hmax

end Sys2Proof.Machine
end

section
/-! PROOFS. R150, R158, R166: what an operation that raises has done, and which operation raises what. That only a listed pair
raises is read off `exec_next`; that every listed pair happens is the branch of its operation that raises, on concrete operands. -/

namespace Sys2Proof.Machine

/-- Settles O3: an error writes the response alone, and there is no fault to answer. -/
theorem errorsWriteNoState : Obligations.ErrorsWriteNoState :=
  ⟨fun _ _ _ _ => exec_error_frame, fun _ _ f => nomatch f⟩

/-- R166: an error comes from an operation the matrix lists it for, since every other next state answers OK. -/
theorem exec_error_mayRaise {i : Instr} {s t : State} {e : SphcError} (h : exec i s = .next t)
    (he : t.response = some (.error e)) : mayRaise i e = true := by
  cases exec_next h with
  | error _ may eq =>
    subst eq
    cases he
    exact may
  | pure _ _ eq | take _ _ _ _ _ _ eq | put _ _ _ _ _ _ eq | rdLoad _ _ _ eq | wrClear _ eq => exact nomatch eq ▸ he

/-! ## The branches of the marshaller that raise -/

/-- An error of the parse is the response of PKT_PARSE. -/
theorem exec_pktParse_of_raise {buf : List Byte} {s : State} {e : SphcError}
    (hraise : packetParse s.cfg.cap buf = .raise e) (hmax : buf.length ≤ s.cfg.maxBuf) :
    exec (.pktParse buf) s = .next { s with response := some (.error e) } :=
  (exec_pktParse_of_le hmax).trans (congrArg (finish s _) hraise)

/-- An error of the build is the response of PKT_BUILD. -/
theorem exec_pktBuild_of_raise {apid : Nat} {ptype : PacketType} {sflags : SequenceFlags} {scount : Nat}
    {sh : Option SecHeader} {payload : List Byte} {s : State} {e : SphcError}
    (hraise : packetBuild s.cfg.cap apid ptype sflags scount sh payload = .raise e) (hmax : payload.length ≤ s.cfg.maxBuf) :
    exec (.pktBuild apid ptype sflags scount sh payload) s = .next { s with response := some (.error e) } :=
  (exec_pktBuild_of_le hmax).trans (congrArg (finish s _) hraise)

/-- R122: a header alone announces at least one octet that is not there. -/
theorem packetParse_octetsOfHeader (cap : Cap) {h : PrimaryHeader} (hv : h.valid = true) :
    packetParse cap (octetsOfHeader h) = .raise .truncatedPacket :=
  packetParse_of_rest_lt (headerDecode_octetsOfHeader_append hv []) (Nat.succ_pos h.dataLength)

/-- R123: the capability's own error on the whole data field of a packet that announces a secondary header. -/
theorem packetParse_octetsOfHeader_append_of_fail {cap : Cap} {h : PrimaryHeader} {rest : List Byte} {e : MissionError}
    (hv : h.valid = true) (hlen : rest.length = h.dataLength + 1) (hflag : h.secHeaderFlag = .present)
    (hdecode : cap.shDecode rest = .fail e) :
    packetParse cap (octetsOfHeader h ++ rest) = .raise (.secondaryHeaderDecodeFailed e) :=
  (packetParse_of_rest_eq (headerDecode_octetsOfHeader_append hv rest) hlen).trans (packetOfDataField_of_fail hflag hdecode)

/-! ## Every entry of the matrix happens -/

/-- R150: PKT_PARSE hands over every value of the mission's error, here from a capability that always fails. -/
theorem exists_exec_pktParse_secondaryHeaderDecodeFailed (e : MissionError) :
    ∃ buf s t, exec (.pktParse buf) s = .next t ∧ t.response = some (.error (.secondaryHeaderDecodeFailed e)) :=
  have hv : PrimaryHeader.valid ⟨0, .data, .present, 0, .continuation, 0, 0⟩ = true := by decide
  ⟨_, { State.reset with cfg := ⟨.constant (.fail e), 65542⟩ }, _, exec_pktParse_of_raise
    (packetParse_octetsOfHeader_append_of_fail (rest := [0#8]) hv rfl rfl rfl) (by decide : 7 ≤ 65542), rfl⟩

/-- R150: PKT_BUILD raises each of its three errors. Only a secondary header takes the data field past 65536 octets here, so
that the payload stays within MAX_BUF. -/
theorem exists_exec_pktBuild_error {e : SphcError} (he : e = .fieldOutOfRange ∨ e = .payloadTooLarge ∨ e = .emptyDataField) :
    ∃ apid ptype sflags scount sh payload s t,
      exec (.pktBuild apid ptype sflags scount sh payload) s = .next t ∧ t.response = some (.error e) := by
  obtain rfl | rfl | rfl := he
  · exact ⟨2048, .data, .unsegmented, 0, none, [], State.reset, _,
      exec_pktBuild_of_raise (packetBuild_of_outOfRange (by decide)) (by decide), rfl⟩
  · exact ⟨0, .data, .unsegmented, 0, some ⟨[]⟩, [], { State.reset with cfg := ⟨.fixed 65537, 65542⟩ }, _,
      exec_pktBuild_of_raise (packetBuild_of_tooLarge (by decide) (by decide) (by decide)) (by decide), rfl⟩
  · exact ⟨0, .data, .unsegmented, 0, none, [], State.reset, _,
      exec_pktBuild_of_raise (packetBuild_of_empty (by decide) (by decide) rfl) (by decide), rfl⟩

/-- Settles O4: the codes are the definition's; only listed pairs raise; and each listed pair happens in the reset state, but for
the two errors that depend on the capability. -/
theorem errorsComeFromTheirOperations : Obligations.ErrorsComeFromTheirOperations := by
  have hbad : ¬ PrimaryHeader.valid ⟨8, .data, .notPresent, 0, .continuation, 0, 0⟩ = true := by decide
  have hgood : PrimaryHeader.valid ⟨0, .data, .notPresent, 0, .continuation, 0, 0⟩ = true := by decide
  refine ⟨fun _ => rfl, rfl, rfl, rfl, rfl, fun _ => rfl, rfl, rfl, fun _ => rfl, fun _ _ _ _ => exec_error_mayRaise,
    ?take, ?put, ?hdrDecode, ?hdrEncode, ?parseShort, ?parseTruncated, exists_exec_pktParse_secondaryHeaderDecodeFailed,
    ?toBytes, fun _ => exists_exec_pktBuild_error⟩
  case take => exact ⟨1, State.reset, _, exec_take_of_short (by decide) (by decide), rfl⟩
  case put => exact ⟨2, 1, State.reset, _, exec_put_of_overflow (by decide) (by decide), rfl⟩
  case hdrDecode => exact ⟨[], State.reset, _, exec_hdrDecode_of_short (by decide) (by decide), rfl⟩
  case hdrEncode => exact ⟨_, State.reset, _, exec_hdrEncode_of_not_valid hbad, rfl⟩
  case parseShort =>
    exact ⟨[], State.reset, _, exec_pktParse_of_raise (packetParse_of_length_lt (by decide)) (by decide), rfl⟩
  case parseTruncated =>
    exact ⟨_, State.reset, _, exec_pktParse_of_raise (packetParse_octetsOfHeader _ hgood) (by decide), rfl⟩
  case toBytes => exact ⟨⟨_, none, []⟩, State.reset, _, exec_pktToBytes_of_not_valid hbad (Nat.zero_le _), rfl⟩

end Sys2Proof.Machine
end

section
/-! PROOFS. R183 to R185: what the host actions on the cursors write, and the byte view of R13 that WR_READ returns. -/

namespace Sys2Proof.Machine

/-! ## WR_READ (R185) -/

/-- R13: an octet of the byte view is R34's sum over the eight bits it is packed from. -/
theorem packBytes_getD_toNat (bits : List Bool) {i : Nat} (hi : i < bits.length / 8) :
    ((packBytes bits).getD i 0#8).toNat =
      ∑ k ∈ Finset.range 8, (bits.getD (8 * i + k) false).toNat * 2 ^ (7 - k) := by
  rw [packBytes_getD bits i hi, BitVec.toNat_ofNat, Nat.mod_eq_of_lt (readBits_lt _ _ _)]
  exact readBits_eq_sum _ _ _

/-- D10: a last octet that is only partly written is not padded. -/
theorem exec_wrRead_of_partial {s : State} (hpartial : s.wbits.length % 8 ≠ 0) :
    exec .wrRead s = .refused .writtenBitsNotWholeOctets := if_neg hpartial

theorem exec_wrRead_of_whole {s : State} (hwhole : s.wbits.length % 8 = 0) :
    exec .wrRead s = .next { s with response := some (.ok (.bytes (packBytes s.wbits))) } := if_pos hwhole

/-- Settles O37: the test of R185 decides between the two ends, and the octets returned are the byte view of WBITS. -/
theorem wrReadReturnsTheWrittenOctets : Obligations.WrReadReturnsTheWrittenOctets :=
  ⟨fun _ => rfl, fun _ => exec_wrRead_of_partial, fun s hwhole =>
    ⟨packBytes s.wbits, exec_wrRead_of_whole hwhole, packBytes_length s.wbits, fun _ => packBytes_getD_toNat s.wbits⟩⟩

/-! ## RD_LOAD and WR_CLEAR (R183, R184) -/

/-- Settles O35: a buffer within MAX_BUF passes the test of R44, and the cursor is set to its first bit. -/
theorem rdLoadSetsTheReadCursor : Obligations.RdLoadSetsTheReadCursor :=
  ⟨fun _ => rfl, fun _ _ hmax => withinMaxBuf_of_le _ hmax⟩

/-- Settles O36: WR_CLEAR tests nothing, so its one end is the definition's in every state. -/
theorem wrClearEmptiesTheWriter : Obligations.WrClearEmptiesTheWriter :=
  ⟨fun _ => rfl, fun _ => rfl⟩

end Sys2Proof.Machine
end

section
/-! PROOFS. What every step keeps (R10 to R13, R16, R18, R20, R30, R102). A step is nothing, a reset or an operation, so a
predicate that does not read the inputs is kept once reset and every operation keep it. What an operation writes is read off
`exec_next`, and what it hands over off `exec_ok`. -/

namespace Sys2Proof.Machine

/-! ## From the operations to the step -/

/-- An invariant of the operations and of reset that does not read the inputs is one of every step. -/
theorem step_keeps {P : State → Prop} (hinputs : ∀ u rest, P u → P { u with inputs := rest })
    (hcleared : ∀ u, P u → P u.cleared)
    (hexec : ∀ i u v, P u → exec i u = .next v → P v) {s t : State} (hs : P s) (h : step s = .next t) : P t := by
  obtain ⟨-, rfl⟩ | ⟨rest, -, rfl⟩ | ⟨r, rest, -, h⟩ := step_next h
  · exact hs
  · exact hcleared _ (hinputs s rest hs)
  · exact hexec _ _ t (hinputs s rest hs) h

/-- Settles O8: neither reset nor an operation writes the configuration. -/
theorem stepKeepsTheConfiguration : Obligations.StepKeepsTheConfiguration := fun s _ h =>
  step_keeps (P := fun u => u.cfg = s.cfg) (fun _ _ hu => hu) (fun _ hu => hu)
    (fun _ _ _ hu hexec => (exec_keeps_cfg_inputs hexec).1.trans hu) rfl h

/-! ## The cursor bounds (R11 to R13) -/

/-- R30 of the byte storage: only RD_LOAD writes RBUF, only PUT lengthens WBITS, and each of them has tested its bound. -/
theorem exec_keeps_lengths {i : Instr} {s t : State} (h : exec i s = .next t) (hrbuf : s.rbuf.length ≤ s.cfg.maxBuf)
    (hwbits : s.wbits.length ≤ 8 * s.cfg.maxBuf) :
    t.rbuf.length ≤ t.cfg.maxBuf ∧ t.wbits.length ≤ 8 * t.cfg.maxBuf := by
  cases exec_next h with
  | put v n _ _ _ room eq => exact eq ▸ ⟨hrbuf, by simpa using room⟩
  | rdLoad buf _ room eq => exact eq ▸ ⟨room, hwbits⟩
  | wrClear _ eq => exact eq ▸ ⟨hrbuf, Nat.zero_le _⟩
  | error _ _ eq | pure _ _ eq | take _ _ _ _ _ _ eq => exact eq ▸ ⟨hrbuf, hwbits⟩

/-- R12: TAKE advances RPOS only over bits that are there, and RD_LOAD takes it back to 0. -/
theorem exec_keeps_rpos_le {i : Instr} {s t : State} (h : exec i s = .next t) (hrpos : s.rpos ≤ 8 * s.rbuf.length) :
    t.rpos ≤ 8 * t.rbuf.length := by
  cases exec_next h with
  | take n _ _ _ _ room eq => exact eq ▸ room
  | rdLoad buf _ _ eq => exact eq ▸ Nat.zero_le _
  | error _ _ eq | pure _ _ eq | put _ _ _ _ _ _ eq | wrClear _ eq => exact eq ▸ hrpos

/-- The bounds hold of empty cursors under any configuration. -/
theorem State.cleared_inv (s : State) : s.cleared.Inv := by simp [State.Inv]

/-- Settles O5: the lengths by their tests, the position by TAKE's. -/
theorem stepKeepsTheCursorBounds : Obligations.StepKeepsTheCursorBounds := by
  refine fun s t hs h => step_keeps (fun _ _ hu => hu) (fun u _ => u.cleared_inv) (fun i u v hu hexec => ?_) hs h
  obtain ⟨hrbuf, hrpos, hwbits⟩ := hu
  obtain ⟨hrbuf', hwbits'⟩ := exec_keeps_lengths hexec hrbuf hwbits
  exact ⟨hrbuf', exec_keeps_rpos_le hexec hrpos, hwbits'⟩

/-! ## What an operation hands over -/

/-- The results an operation can answer in a state, each with where it comes from. -/
inductive ResultIn (s : State) : Result → Prop where
  | nothing : ResultIn s .nothing
  | int (v : Nat) : ResultIn s (.int v)
  | unread (k : Nat) : ResultIn s (.bytes (s.rbuf.drop k))
  | written : ResultIn s (.bytes (packBytes s.wbits))
  | buffer (bs : List Byte) (len : bs.length ≤ s.cfg.maxBuf) : ResultIn s (.bytes bs)
  | header (buf : List Byte) (len : buf.length ≤ s.cfg.maxBuf) :
      ResultIn s (.header (headerOfOctets buf) (buf.drop Config.hdrOctets))
  | parsed (buf : List Byte) (p : SpacePacket) (len : buf.length ≤ s.cfg.maxBuf)
      (parse : packetParse s.cfg.cap buf = .done p) : ResultIn s (.packet p)
  | built (p : SpacePacket) (len : p.payload.length ≤ s.cfg.maxBuf) (valid : p.valid s.cfg.cap = true) : ResultIn s (.packet p)

theorem headerDecode_of_le {buf : List Byte} (hlen : 6 ≤ buf.length) :
    headerDecode buf = .done (headerOfOctets buf, buf.drop 6) := if_neg hlen.not_gt

/-- R101: what HDR_DECODE computes, where it does not raise. -/
theorem headerDecode_done {buf rest : List Byte} {h : PrimaryHeader} (hdecode : headerDecode buf = .done (h, rest)) :
    h = headerOfOctets buf ∧ rest = buf.drop 6 := by
  rw [headerDecode] at hdecode
  split_ifs at hdecode
  cases hdecode
  exact ⟨rfl, rfl⟩

/-- An OK response of an operation that ends in `finish`. -/
theorem finish_ok {α : Type} {s t : State} {f : α → Result} {r : OpResult α} {x : Result} (h : finish s f r = .next t)
    (hx : t.response = some (.ok x)) : ∃ a, r = .done a ∧ x = f a := by
  obtain ⟨a, hr, rfl⟩ | ⟨e, -, rfl⟩ := finish_next h
  · cases hx
    exact ⟨a, hr, rfl⟩
  · exact nomatch hx

/-- An OK response of an operation that ends in `finishBuffer`. -/
theorem finishBuffer_ok {s t : State} {r : OpResult (List Byte)} {x : Result} (h : finishBuffer s r = .next t)
    (hx : t.response = some (.ok x)) : ResultIn s x := by
  obtain ⟨bs, -, hlen, rfl⟩ | ⟨e, -, rfl⟩ := finishBuffer_next h
  · cases hx
    exact .buffer bs hlen
  · exact nomatch hx

/-- A result tested for by one condition, as BYTE_POSITION, REMAINING_BYTES and WR_READ test for theirs. -/
theorem ite_complete_ok {c : Prop} [Decidable c] {s t : State} {q : Refusal} {r x : Result}
    (h : (if c then complete s r else .refused q) = .next t) (hx : t.response = some (.ok x)) : x = r := by
  split_ifs at h
  cases h
  cases hx
  rfl

/-- Everything an operation can answer with status OK. -/
theorem exec_ok {i : Instr} {s t : State} {r : Result} (h : exec i s = .next t) (hr : t.response = some (.ok r)) :
    ResultIn s r := by
  cases i with
  | take n | put v n | rdLoad buf | wrClear =>
    cases exec_next h with
    | error _ _ eq => exact nomatch eq ▸ hr
    | pure _ idem => exact nomatch idem
    | take _ v _ _ _ _ eq =>
      subst eq
      cases hr
      exact .int v
    | put _ _ _ _ _ _ eq | rdLoad _ _ _ eq | wrClear _ eq =>
      subst eq
      cases hr
      exact .nothing
  | bytePosition => exact ite_complete_ok h hr ▸ .int _
  | remainingBytes => exact ite_complete_ok h hr ▸ .unread _
  | wrRead => exact ite_complete_ok h hr ▸ .written
  | hdrDecode buf =>
    obtain ⟨hlen, hfinish⟩ := withinMaxBuf_next h
    obtain ⟨⟨hd, rest⟩, hdecode, rfl⟩ := finish_ok hfinish hr
    obtain ⟨rfl, rfl⟩ := headerDecode_done hdecode
    exact .header buf hlen
  | hdrEncode x => exact finishBuffer_ok h hr
  | pktParse buf =>
    obtain ⟨hlen, hfinish⟩ := withinMaxBuf_next h
    obtain ⟨p, hparse, rfl⟩ := finish_ok hfinish hr
    exact .parsed buf p hlen hparse
  | pktBuild apid ptype sflags scount sh payload =>
    obtain ⟨hlen, hfinish⟩ := withinMaxBuf_next h
    obtain ⟨p, hbuild, rfl⟩ := finish_ok hfinish hr
    obtain ⟨hvalid, -, rfl⟩ := packetBuild_done hbuild
    exact .built p hlen hvalid
  | pktToBytes p => exact finishBuffer_ok (withinMaxBuf_next h).2 hr
  | reserved0 | reservedD | reservedE | reservedF | primaryHeader x => exact nomatch h

/-! ## Parsed packets (R16, R121) -/

section Parsed

variable {cap : Cap} {buf rest : List Byte} {h : PrimaryHeader} {p : SpacePacket}

/-- R121, R123: a packet is the header, what the capability took off the front of the data field, and what is left of it. -/
theorem packetOfDataField_done (hdone : packetOfDataField cap h rest = .done p) :
    p = ⟨h, none, rest⟩ ∧ h.secHeaderFlag = .notPresent ∨
      ∃ sh k, cap.shDecode rest = .ok sh k ∧ p = ⟨h, some sh, rest.drop k⟩ ∧ h.secHeaderFlag = .present := by
  cases hflag : h.secHeaderFlag with
  | notPresent =>
    cases (packetOfDataField_of_notPresent hflag).symm.trans hdone
    exact .inl ⟨rfl, rfl⟩
  | present =>
    cases hdecode : cap.shDecode rest with
    | short => exact nomatch (packetOfDataField_of_short hflag hdecode).symm.trans hdone
    | fail e => exact nomatch (packetOfDataField_of_fail hflag hdecode).symm.trans hdone
    | ok sh k =>
      rcases Nat.lt_or_ge rest.length k with hk | hk
      · exact nomatch (packetOfDataField_of_ok_of_lt hflag hdecode hk).symm.trans hdone
      · cases (packetOfDataField_of_ok_of_le hflag hdecode hk).symm.trans hdone
        exact .inr ⟨sh, k, rfl, rfl, rfl⟩

/-- R121: a parse that succeeds has read a header and a data field of the length it declares. -/
theorem packetParse_done (hdone : packetParse cap buf = .done p) :
    (buf.drop 6).length = (headerOfOctets buf).dataLength + 1 ∧
      packetOfDataField cap (headerOfOctets buf) (buf.drop 6) = .done p := by
  rcases Nat.lt_or_ge buf.length 6 with hshort | hlen
  · exact nomatch (packetParse_of_length_lt hshort).symm.trans hdone
  · have hdecode := headerDecode_of_le hlen
    rcases lt_trichotomy (buf.drop 6).length ((headerOfOctets buf).dataLength + 1) with hlt | heq | hgt
    · exact nomatch (packetParse_of_rest_lt hdecode hlt).symm.trans hdone
    · exact ⟨heq, (packetParse_of_rest_eq hdecode heq).symm.trans hdone⟩
    · exact nomatch (packetParse_of_rest_gt hdecode hgt).symm.trans hdone

/-- A payload is a part of the buffer parsed. -/
theorem packetParse_payload_length_le (hdone : packetParse cap buf = .done p) : p.payload.length ≤ buf.length := by
  obtain ⟨-, hfield⟩ := packetParse_done hdone
  obtain ⟨rfl, -⟩ | ⟨sh, k, -, rfl, -⟩ := packetOfDataField_done hfield <;> simp only [List.length_drop] <;> omega

/-- R16 of a parsed packet, its third part under law 3 of R21: the payload is what the secondary header left of the octets
declared. -/
theorem packetParse_valid (hdone : packetParse cap buf = .done p) :
    p.header.valid = true ∧ p.header.secHeaderFlag = .ofOption p.secondary ∧
      (cap.LengthLaw → p.header.dataLength + 1 = cap.lengthOf p.secondary + p.payload.length) := by
  obtain ⟨hlen, hfield⟩ := packetParse_done hdone
  obtain ⟨rfl, hflag⟩ | ⟨sh, k, hdecode, rfl, hflag⟩ := packetOfDataField_done hfield
  · exact ⟨headerOfOctets_valid buf, hflag, fun _ => by simpa [Cap.lengthOf] using hlen.symm⟩
  · refine ⟨headerOfOctets_valid buf, hflag, fun hlaw => ?_⟩
    obtain ⟨hk, hlength⟩ := hlaw _ _ _ hdecode
    rw [Cap.lengthOf, hlength, List.length_drop, ← hlen]
    omega

end Parsed

/-! ## The response (R16, R30, R102) -/

/-- A valid result under a configuration: what `State.ResponseValid`, which reads nothing else, asks of an OK response. -/
def Result.validFor (cfg : Params) (r : Result) : Prop := State.ResponseValid ⟨cfg, [], 0, [], [], some (.ok r)⟩

theorem State.responseValid_of_ok {s : State} (h : ∀ r, s.response = some (.ok r) → r.validFor s.cfg) : s.ResponseValid := by
  obtain ⟨cfg, rbuf, rpos, wbits, inputs, _ | r | e⟩ := s
  · trivial
  · exact h r rfl
  · trivial

theorem ResultIn.validFor {s : State} {r : Result} (h : ResultIn s r) : r.validFor s.cfg := by
  cases h with
  | nothing | int | unread | written | buffer => trivial
  | header buf => exact headerOfOctets_valid buf
  | parsed buf p _ parse => exact packetParse_valid parse
  | built p _ valid =>
    obtain ⟨hheader, hflag, hlength⟩ := (SpacePacket.valid_iff s.cfg.cap p).mp valid
    exact ⟨hheader, hflag, fun _ => hlength⟩

/-- Settles O7: what an operation hands over is valid whatever the response before was. -/
theorem stepKeepsResponsesValid : Obligations.StepKeepsResponsesValid := by
  refine fun s t hs h => step_keeps (fun _ _ hu => hu) (fun _ _ => trivial) (fun i u v _ hexec => ?_) hs h
  obtain ⟨hcfg, -⟩ := exec_keeps_cfg_inputs hexec
  exact State.responseValid_of_ok fun r hr => hcfg ▸ (exec_ok hexec hr).validFor

/-- The octets a result hands over: a result buffer, octets passed on, a payload. -/
def Result.octets : Result → List Byte
  | .bytes bs => bs
  | .header _ rest => rest
  | .packet p => p.payload
  | .nothing => []
  | .int _ => []

theorem State.buffersWithinMaxBuf_of_ok {s : State} (hrbuf : s.rbuf.length ≤ s.cfg.maxBuf)
    (hwbits : s.wbits.length ≤ 8 * s.cfg.maxBuf)
    (h : ∀ r, s.response = some (.ok r) → r.octets.length ≤ s.cfg.maxBuf) : s.BuffersWithinMaxBuf := by
  obtain ⟨cfg, rbuf, rpos, wbits, inputs, _ | r | e⟩ := s
  · exact ⟨hrbuf, hwbits, trivial⟩
  · refine ⟨hrbuf, hwbits, ?_⟩
    cases r with
    | nothing | int => trivial
    | bytes | header | packet => exact h _ rfl
  · exact ⟨hrbuf, hwbits, trivial⟩

/-- R30: what is handed over is a part of a buffer within MAX_BUF, or has been tested itself. -/
theorem ResultIn.octets_length_le {s : State} {r : Result} (h : ResultIn s r) (hrbuf : s.rbuf.length ≤ s.cfg.maxBuf)
    (hwbits : s.wbits.length ≤ 8 * s.cfg.maxBuf) : r.octets.length ≤ s.cfg.maxBuf := by
  cases h with
  | nothing | int => exact Nat.zero_le _
  | unread k => exact (List.drop_sublist k s.rbuf).length_le.trans hrbuf
  | written =>
    rw [Result.octets, packBytes_length]
    omega
  | buffer bs len => exact len
  | header buf len => exact (List.drop_sublist _ buf).length_le.trans len
  | parsed buf p len parse => exact (packetParse_payload_length_le parse).trans len
  | built p len => exact len

/-- Settles O42: the storage by its tests, the response by where its octets come from. -/
theorem stepKeepsBuffersWithinMaxBuf : Obligations.StepKeepsBuffersWithinMaxBuf := by
  refine fun s t hs h => step_keeps (fun _ _ hu => hu) (fun u _ => ⟨Nat.zero_le _, Nat.zero_le _, trivial⟩)
    (fun i u v hu hexec => ?_) hs h
  obtain ⟨hrbuf, hwbits, -⟩ := hu
  obtain ⟨hcfg, -⟩ := exec_keeps_cfg_inputs hexec
  obtain ⟨hrbuf', hwbits'⟩ := exec_keeps_lengths hexec hrbuf hwbits
  exact State.buffersWithinMaxBuf_of_ok hrbuf' hwbits' fun r hr => hcfg ▸ (exec_ok hexec hr).octets_length_le hrbuf hwbits

/-- Settles O6: the reset state has empty cursors and no response. -/
theorem resetIsInsideTheCursorBounds : Obligations.ResetIsInsideTheCursorBounds :=
  ⟨State.reset.cleared_inv, trivial, Nat.zero_le _, Nat.zero_le _, trivial⟩

end Sys2Proof.Machine
end

section
/-! PROOFS. R50, R51, R65: requests and header words. Only the data format packs its operands into the select word, so that its
round trip is the one case of the decoder that takes an argument. -/

namespace Sys2Proof.Machine

/-- Settles O40: an operation's operands travel beside its code, and a header in range is read back from its word (R59). -/
theorem decodeInvertsEncode : Obligations.DecodeInvertsEncode := by
  intro i hi
  cases i with
  | primaryHeader h => exact congrArg Instr.primaryHeader (headerOfWord_wordOfHeader hi)
  | take n | put v n | bytePosition | remainingBytes | hdrDecode buf | hdrEncode h | pktParse buf
  | pktBuild apid ptype sflags scount sh payload | pktToBytes p | rdLoad buf | wrClear | wrRead | reserved0 | reservedD
  | reservedE | reservedF => rfl

/-- A step performs the request that is issued next. -/
theorem step_of_request {s : State} {r : Request} {rest : List HostInput} (h : s.inputs = .request r :: rest) :
    step s = exec (decode r) { s with inputs := rest } := by
  rw [step, h]

/-- A step takes the reset that is issued next. -/
theorem step_of_reset {s : State} {rest : List HostInput} (h : s.inputs = .reset :: rest) :
    step s = .next { s with inputs := rest }.cleared := by
  rw [step, h]

/-- Settles O1: the arms of the step, with the decoder undoing the encoder. -/
theorem stepPerformsTheNextRequest : Obligations.StepPerformsTheNextRequest := by
  refine ⟨fun s r rest => step_of_request, fun s i rest hi h => ?_, fun s h => ?_⟩
  · rw [step_of_request h, decodeInvertsEncode i hi]
  · rw [step, h]

/-- R185 where nothing is written. -/
theorem exec_wrRead_of_nil {s : State} (h : s.wbits = []) :
    exec .wrRead s = .next { s with response := some (.ok (.bytes [])) } := by
  rw [exec_wrRead_of_whole (by simp [h]), h]
  rfl

/-- Settles O2: after a reset there is no bit to take, and no written bit to read. -/
theorem resetEmptiesTheCursors : Obligations.ResetEmptiesTheCursors := by
  refine ⟨fun s rest h => ⟨_, step_of_reset h, rfl, fun n hlo hhi => ?_,
    exec_wrRead_of_nil rfl⟩, rfl, rfl, rfl, rfl⟩
  exact exec_take_of_short ⟨hlo, hhi⟩ (by simp; omega)

/-- Settles O39: a header word selects the data format's row, which is refused. -/
theorem dataFormatIsNoOperation : Obligations.DataFormatIsNoOperation := fun _ _ _ => rfl

/-- Settles O41: each written word is decoded by evaluation. -/
theorem writtenWordsDecode : Obligations.WrittenWordsDecode := by
  refine ⟨?_, ?_, ?_, ?_, ?_, ?_, ?_⟩ <;> decide

/-- Settles O25: HDR_DECODE reads the fields of the header word, HDR_ENCODE of a word's fields writes the word's octets, and every
valid header is the fields of some word. -/
theorem codecOctetsAreTheHeaderWord : Obligations.CodecOctetsAreTheHeaderWord := by
  refine ⟨fun b0 b1 b2 b3 b4 b5 s hmax => ?_, fun h s hv hmax => ?_, fun h => wordOfHeader_toNat⟩
  · rw [exec_hdrDecode_of_le (by simp) (by simpa using hmax), headerOfOctets_eq_headerOfWord]
    rfl
  · rw [exec_hdrEncode_of_valid hv hmax]
    obtain ⟨b0, b1, b2, b3, b4, b5, rfl⟩ := PrimaryHeader.exists_headerWord hv
    rw [octetsOfHeader_headerOfWord]
    exact ⟨b0, b1, b2, b3, b4, b5, rfl, encode_primaryHeader_word_iff.mpr (wordOfHeader_headerOfWord _)⟩

end Sys2Proof.Machine
end

section
/-! PROOFS. R83, R86, R87 and R68: runs of TAKEs and PUTs. A run of PUTs appends the bits of its fields one after the other, and a
run of TAKEs reads the bits of its widths one after the other; both say what happens where an operation raises. TAKE undoes PUT
because the stream bits of the byte view are the bits put (R13). -/

namespace Sys2Proof.Machine

/-! ## Two operations and one (R83, R86) -/

/-- Settles O17: the joined read is the mixed-width view of R34. -/
theorem twoTakesEqualOne : Obligations.TwoTakesEqualOne := by
  intro s a b ha hb hab hroom
  refine ⟨memRead s s.rpos a, memRead s (s.rpos + a) b, _, exec_take_of_le (by omega) (by omega), rfl, ?_, ?_⟩
  · exact exec_take_of_le (by omega) hroom
  · rw [exec_take_of_le (by omega) (by omega), ← Nat.add_assoc, memRead, bitsOf, readBits_add]
    rfl

/-- A joined value fits the joined width. -/
theorem mul_two_pow_add_lt {x y a b : Nat} (hx : x < 2 ^ a) (hy : y < 2 ^ b) : x * 2 ^ b + y < 2 ^ (a + b) := by
  calc x * 2 ^ b + y < (x + 1) * 2 ^ b := by rw [Nat.succ_mul]; omega
    _ ≤ 2 ^ a * 2 ^ b := Nat.mul_le_mul_right _ hx
    _ = 2 ^ (a + b) := (Nat.pow_add 2 a b).symm

/-- Settles O18: the bits of the joined value are the bits of both. -/
theorem twoPutsEqualOne : Obligations.TwoPutsEqualOne := by
  intro s x a y b ha hb hab hx hy hroom
  refine ⟨_, _, rfl, rfl, ?_, ?_, ?_⟩
  · rw [exec_put_of_le (by omega) hx (by omega), valueBits_eq_map]
  · rw [exec_put_of_le (by omega) hy (by simpa using hroom), valueBits_eq_map]
  · rw [exec_put_of_le (by omega) (mul_two_pow_add_lt hx hy) (by omega), valueBits_append x y a b hy, valueBits_eq_map,
      valueBits_eq_map, List.append_assoc]

/-- R86: a PUT that fits but has no room. -/
theorem exec_put_of_full {value n : Nat} {s : State} (hn : 1 ≤ n ∧ n ≤ 16) (hvalue : value < 2 ^ n)
    (hfull : 8 * s.cfg.maxBuf < s.wbits.length + n) : exec (.put value n) s = .refused .writeBufferFull :=
  (if_pos ((legalCount_iff n).mpr hn)).trans ((if_pos ((fits_iff value n).mpr hvalue)).trans (if_neg hfull.not_ge))

/-- Settles O44: the value is tested before the room. -/
theorem putWithoutRoom : Obligations.PutWithoutRoom := fun _ _ _ lo hi hfull =>
  ⟨fun hvalue => exec_put_of_full ⟨lo, hi⟩ hvalue hfull, exec_put_of_overflow ⟨lo, hi⟩⟩

/-! ## Runs of PUTs (R85) -/

/-- A legal bit count (R84). -/
abbrev LegalWidth (n : Nat) : Prop := 1 ≤ n ∧ n ≤ 16

/-- The bits that PUTs of a list of fields, each a value and a width, append. -/
def fieldBits (fields : List (Nat × Nat)) : List Bool := fields.flatMap fun f => valueBits f.1 f.2

@[simp] theorem fieldBits_nil : fieldBits [] = [] := rfl

@[simp] theorem fieldBits_cons (f : Nat × Nat) (fields : List (Nat × Nat)) :
    fieldBits (f :: fields) = valueBits f.1 f.2 ++ fieldBits fields := rfl

@[simp] theorem fieldBits_length (fields : List (Nat × Nat)) : (fieldBits fields).length = (fields.map Prod.snd).sum := by
  induction fields with
  | nil => rfl
  | cons f fields ih => simp [ih]

/-- PUTs of values that fit, with room for them all, append the bits of all fields. -/
theorem execAll_puts {fields : List (Nat × Nat)} {s : State} (hwidth : ∀ f ∈ fields, LegalWidth f.2)
    (hvalue : ∀ f ∈ fields, f.1 < 2 ^ f.2) (hroom : s.wbits.length + (fields.map Prod.snd).sum ≤ 8 * s.cfg.maxBuf) :
    ∃ r, execAll (fields.map fun f => .put f.1 f.2) s =
      some (fields.map fun _ => .ok .nothing, { s with wbits := s.wbits ++ fieldBits fields, response := r }) := by
  induction fields generalizing s with
  | nil => exact ⟨s.response, by simp [execAll]⟩
  | cons f fields ih =>
    rw [List.forall_mem_cons] at hwidth hvalue
    simp only [List.map_cons, List.sum_cons] at hroom ⊢
    have hput := exec_put_of_le (s := s) hwidth.1 hvalue.1 (by omega)
    obtain ⟨r, hrun⟩ := ih (s := { s with wbits := s.wbits ++ valueBits f.1 f.2, response := some (.ok .nothing) })
      hwidth.2 hvalue.2 (by simp; omega)
    refine ⟨r, (execAll_cons hput hrun).trans ?_⟩
    simp

/-- Where there is room for all fields, PUTs are not refused, and a value that does not fit its width raises. -/
theorem execAll_puts_overflow {fields : List (Nat × Nat)} {s : State} (hwidth : ∀ f ∈ fields, LegalWidth f.2)
    (hroom : s.wbits.length + (fields.map Prod.snd).sum ≤ 8 * s.cfg.maxBuf) :
    ∃ rs t, execAll (fields.map fun f => .put f.1 f.2) s = some (rs, t) ∧
      ((∃ f ∈ fields, 2 ^ f.2 ≤ f.1) → Response.error .fieldOverflow ∈ rs) := by
  induction fields generalizing s with
  | nil => exact ⟨[], s, rfl, by simp⟩
  | cons f fields ih =>
    rw [List.forall_mem_cons] at hwidth
    simp only [List.map_cons, List.sum_cons] at hroom ⊢
    rcases Nat.lt_or_ge f.1 (2 ^ f.2) with hvalue | hvalue
    · have hput := exec_put_of_le (s := s) hwidth.1 hvalue (by omega)
      obtain ⟨rs, t, hrun, hraise⟩ := ih (s := { s with wbits := s.wbits ++ valueBits f.1 f.2, response := some (.ok .nothing) })
        hwidth.2 (by simp; omega)
      refine ⟨_, t, execAll_cons hput hrun, fun hbad => List.mem_append_right _ (hraise ?_)⟩
      exact ((List.exists_mem_cons_iff _ _ _).mp hbad).resolve_left hvalue.not_ge
    · have hput := exec_put_of_overflow (s := s) hwidth.1 hvalue
      obtain ⟨rs, t, hrun, -⟩ := ih (s := { s with response := some (.error .fieldOverflow) }) hwidth.2 (by simp; omega)
      exact ⟨_, t, execAll_cons hput hrun, fun _ => by simp⟩

/-! ## Runs of TAKEs (R82) -/

/-- The values of consecutive fields of the given widths, from stream bit `a` on. -/
def fieldsAt (buf : List Byte) (a : Nat) : List Nat → List Nat
  | [] => []
  | n :: ns => bitsOf buf a n :: fieldsAt buf (a + n) ns

/-- TAKEs of bits that are all there read the fields of their widths. -/
theorem execAll_takes {ns : List Nat} {s : State} (hwidth : ∀ n ∈ ns, LegalWidth n)
    (hroom : s.rpos + ns.sum ≤ 8 * s.rbuf.length) :
    ∃ r, execAll (ns.map .take) s =
      some ((fieldsAt s.rbuf s.rpos ns).map fun v => .ok (.int v), { s with rpos := s.rpos + ns.sum, response := r }) := by
  induction ns generalizing s with
  | nil => exact ⟨s.response, by simp [execAll, fieldsAt]⟩
  | cons n ns ih =>
    rw [List.forall_mem_cons] at hwidth
    rw [List.sum_cons] at hroom ⊢
    have htake := exec_take_of_le (s := s) hwidth.1 (by omega)
    obtain ⟨r, hrun⟩ := ih (s := { s with rpos := s.rpos + n, response := some (.ok (.int (memRead s s.rpos n))) })
      hwidth.2 (by simp; omega)
    refine ⟨r, (execAll_cons htake hrun).trans ?_⟩
    simp [fieldsAt, memRead, Nat.add_assoc]

/-- TAKEs of legal widths are not refused, and where their bits are not all there one of them raises. -/
theorem execAll_takes_short {ns : List Nat} {s : State} (hwidth : ∀ n ∈ ns, LegalWidth n)
    (hrpos : s.rpos ≤ 8 * s.rbuf.length) :
    ∃ rs t, execAll (ns.map .take) s = some (rs, t) ∧
      (8 * s.rbuf.length < s.rpos + ns.sum → Response.error .insufficientData ∈ rs) := by
  induction ns generalizing s with
  | nil => exact ⟨[], s, rfl, fun hshort => absurd hshort hrpos.not_gt⟩
  | cons n ns ih =>
    rw [List.forall_mem_cons] at hwidth
    rcases Nat.lt_or_ge (8 * s.rbuf.length) (s.rpos + n) with hshort | hroom
    · have htake := exec_take_of_short (s := s) hwidth.1 hshort
      obtain ⟨rs, t, hrun, -⟩ := ih (s := { s with response := some (.error .insufficientData) }) hwidth.2 hrpos
      exact ⟨_, t, execAll_cons htake hrun, fun _ => by simp⟩
    · have htake := exec_take_of_le (s := s) hwidth.1 hroom
      obtain ⟨rs, t, hrun, hraise⟩ :=
        ih (s := { s with rpos := s.rpos + n, response := some (.ok (.int (memRead s s.rpos n))) }) hwidth.2 hroom
      refine ⟨_, t, execAll_cons htake hrun, fun hshort => List.mem_append_right _ (hraise ?_)⟩
      simpa [Nat.add_assoc] using hshort

/-! ## TAKE undoes PUT (R87) -/

/-- Where the stream bits are the bits of fields whose values fit, those values are read. -/
theorem fieldsAt_of_streamBit {buf : List Byte} {fields : List (Nat × Nat)} {a : Nat} (hvalue : ∀ f ∈ fields, f.1 < 2 ^ f.2)
    (hbits : ∀ k < (fieldBits fields).length, (fieldBits fields)[k]? = some (streamBit buf (a + k))) :
    fieldsAt buf a (fields.map Prod.snd) = fields.map Prod.fst := by
  induction fields generalizing a with
  | nil => rfl
  | cons f fields ih =>
    rw [List.forall_mem_cons] at hvalue
    simp only [fieldBits_cons, List.length_append, valueBits_length] at hbits
    have hhead : bitsOf buf a f.2 = f.1 := by
      refine (readBits_of_testBit (v := f.1) fun k hk => ?_).trans (Nat.mod_eq_of_lt hvalue.1)
      have hbit := hbits k (by omega)
      rw [List.getElem?_append_left (by simpa using hk), valueBits_getElem? _ _ _ hk] at hbit
      exact (Option.some.inj hbit).symm
    have htail : fieldsAt buf (a + f.2) (fields.map Prod.snd) = fields.map Prod.fst := by
      refine ih hvalue.2 fun k hk => ?_
      have hbit := hbits (f.2 + k) (by omega)
      rwa [List.getElem?_append_right (by simp), valueBits_length, Nat.add_sub_cancel_left, ← Nat.add_assoc] at hbit
    rw [List.map_cons, List.map_cons, fieldsAt, hhead, htail]

/-- R13: the fields of the byte view of whole octets are the fields put. -/
theorem fieldsAt_packBytes {fields : List (Nat × Nat)} (hvalue : ∀ f ∈ fields, f.1 < 2 ^ f.2)
    (hwhole : (fields.map Prod.snd).sum % 8 = 0) :
    fieldsAt (packBytes (fieldBits fields)) 0 (fields.map Prod.snd) = fields.map Prod.fst := by
  refine fieldsAt_of_streamBit hvalue fun k hk => ?_
  rw [Nat.zero_add, streamBit_packBytes _ k (by rw [fieldBits_length] at hk ⊢; omega), List.getD_eq_getElem?_getD,
    List.getElem?_eq_getElem hk, Option.getD_some]

/-- PUTs of whole octets on empty written bits, read back as bytes. -/
theorem execAll_puts_wrRead {fields : List (Nat × Nat)} {s : State} (hempty : s.wbits = [])
    (hwidth : ∀ f ∈ fields, LegalWidth f.2) (hvalue : ∀ f ∈ fields, f.1 < 2 ^ f.2)
    (hwhole : (fields.map Prod.snd).sum % 8 = 0) (hmax : (fields.map Prod.snd).sum ≤ 8 * s.cfg.maxBuf) :
    execAll (fields.map (fun f => .put f.1 f.2) ++ [.wrRead]) s =
      some (fields.map (fun _ => .ok .nothing) ++ [.ok (.bytes (packBytes (fieldBits fields)))],
        { s with wbits := fieldBits fields, response := some (.ok (.bytes (packBytes (fieldBits fields)))) }) := by
  obtain ⟨r, hputs⟩ := execAll_puts (s := s) hwidth hvalue (by simpa [hempty] using hmax)
  rw [hempty, List.nil_append] at hputs
  have hread := exec_wrRead_of_whole (s := { s with wbits := fieldBits fields, response := r }) (by simpa using hwhole)
  exact execAll_append hputs (execAll_cons hread rfl)

theorem exec_rdLoad_of_le {buf : List Byte} {s : State} (hmax : buf.length ≤ s.cfg.maxBuf) :
    exec (.rdLoad buf) s = .next { s with rbuf := buf, rpos := 0, response := some (.ok .nothing) } :=
  withinMaxBuf_of_le _ hmax

/-- TAKEs on a freshly loaded read cursor read the buffer's fields from its first bit on. -/
theorem execAll_rdLoad_takes {buf : List Byte} {ns : List Nat} {s : State} (hmax : buf.length ≤ s.cfg.maxBuf)
    (hwidth : ∀ n ∈ ns, LegalWidth n) (hroom : ns.sum ≤ 8 * buf.length) :
    ∃ r, execAll (.rdLoad buf :: ns.map .take) s =
      some (.ok .nothing :: (fieldsAt buf 0 ns).map fun v => .ok (.int v),
        { s with rbuf := buf, rpos := ns.sum, response := r }) := by
  obtain ⟨r, htakes⟩ := execAll_takes (s := { s with rbuf := buf, rpos := 0, response := some (.ok .nothing) }) hwidth
    (by simpa using hroom)
  rw [Nat.zero_add] at htakes
  exact ⟨r, execAll_cons (exec_rdLoad_of_le hmax) htakes⟩

/-- Settles O19: WR_READ gives the byte view of the fields put, and the TAKEs read its fields. -/
theorem takeUndoesPut : Obligations.TakeUndoesPut := by
  intro fields s hfields hwhole hmax hempty
  have hwidth : ∀ f ∈ fields, LegalWidth f.2 := fun f hf =>
    have ⟨lo, hi, _⟩ := hfields f hf
    ⟨lo, hi⟩
  have hvalue : ∀ f ∈ fields, f.1 < 2 ^ f.2 := fun f hf =>
    have ⟨_, _, hfits⟩ := hfields f hf
    hfits
  have hlen : 8 * (packBytes (fieldBits fields)).length = (fields.map Prod.snd).sum := by
    rw [packBytes_length, fieldBits_length]
    omega
  obtain ⟨r, htakes⟩ := execAll_rdLoad_takes (buf := packBytes (fieldBits fields)) (ns := fields.map Prod.snd)
    (s := { s with wbits := fieldBits fields, response := some (.ok (.bytes (packBytes (fieldBits fields)))) })
    (by dsimp only; omega) (List.forall_mem_map.mpr hwidth) hlen.ge
  rw [fieldsAt_packBytes hvalue hwhole, List.map_map, List.map_map] at htakes
  exact ⟨_, _, _, execAll_puts_wrRead hempty hwidth hvalue hwhole hmax, htakes, hlen.symm⟩

/-! ## A header by the Bit Cursor (R54, R68, R106) -/

/-- The seven fields of a header in wire order, each with its width (R50). -/
def headerFields (h : PrimaryHeader) : List (Nat × Nat) :=
  [(h.version, 3), (h.packetType.code, 1), (h.secHeaderFlag.code, 1), (h.appProcId, 11), (h.sequenceFlags.code, 2),
    (h.sequenceCount, 14), (h.dataLength, 16)]

/-- The widths of R5 in wire order. -/
def headerWidths : List Nat := [3, 1, 1, 11, 2, 14, 16]

theorem headerWidths_legal : ∀ n ∈ headerWidths, LegalWidth n := by decide

theorem headerFields_legal (h : PrimaryHeader) : ∀ f ∈ headerFields h, LegalWidth f.2 :=
  List.forall_mem_map.mp headerWidths_legal

/-- R5: the seven widths make 48 bits. -/
theorem headerFields_sum (h : PrimaryHeader) : ((headerFields h).map Prod.snd).sum = 48 := rfl

/-- R14: a header is valid when its fields fit their widths; an enum's code always does. -/
theorem headerFields_fit_iff (h : PrimaryHeader) : (∀ f ∈ headerFields h, f.1 < 2 ^ f.2) ↔ h.valid = true := by
  have := h.packetType.code_lt
  have := h.secHeaderFlag.code_lt
  have := h.sequenceFlags.code_lt
  rw [PrimaryHeader.valid_iff]
  simp only [headerFields, List.forall_mem_cons, List.not_mem_nil, false_imp_iff, implies_true, and_true]
  omega

/-- R102: the seven reads of a buffer's first 48 bits are the fields of the header decoded from it. -/
theorem fieldsAt_headerWidths (buf : List Byte) :
    fieldsAt buf 0 headerWidths = (headerFields (headerOfOctets buf)).map Prod.fst := by
  have htype := PacketType.code_ofCode (readBits_lt (streamBit buf) 3 1)
  have hflag := SecHeaderFlag.code_ofCode (readBits_lt (streamBit buf) 4 1)
  have hseq := SequenceFlags.code_ofCode (readBits_lt (streamBit buf) 16 2)
  simp only [headerFields, headerOfOctets, List.map_cons, List.map_nil, bitsOf, htype, hflag, hseq]
  rfl

/-- R88 at octet `k`. -/
theorem exec_bytePosition_of_aligned {s : State} {k : Nat} (h : s.rpos = 8 * k) :
    exec .bytePosition s = .next { s with response := some (.ok (.int k)) } := by
  have hk : s.rpos / 8 = k := by omega
  exact hk ▸ if_pos (by omega)

/-- R89 at octet `k`. -/
theorem exec_remainingBytes_of_aligned {s : State} {k : Nat} (h : s.rpos = 8 * k) :
    exec .remainingBytes s = .next { s with response := some (.ok (.bytes (s.rbuf.drop k))) } := by
  have hk : s.rpos / 8 = k := by omega
  exact hk ▸ if_pos (by omega)

/-- Settles O26: the seven TAKEs read the first 48 bits, field by field, and fail where there are fewer. -/
theorem sevenTakesDecodeAHeader : Obligations.SevenTakesDecodeAHeader := by
  refine ⟨fun buf s hshort hmax => ?_, fun buf s hlen hmax => ?_⟩
  · obtain ⟨rs, t, hrun, hraise⟩ := execAll_takes_short headerWidths_legal
      (s := { s with rbuf := buf, rpos := 0, response := some (.ok .nothing) }) (Nat.zero_le _)
    have hsum : headerWidths.sum = 48 := rfl
    exact ⟨_, t, exec_hdrDecode_of_short hshort hmax, execAll_cons (exec_rdLoad_of_le hmax) hrun,
      List.mem_append_right _ (hraise (by dsimp only; omega))⟩
  · obtain ⟨r, htakes⟩ := execAll_rdLoad_takes hmax headerWidths_legal (Nat.mul_le_mul_left 8 hlen)
    rw [fieldsAt_headerWidths] at htakes
    have hposition := exec_bytePosition_of_aligned (k := 6) (s := { s with rbuf := buf, rpos := 48, response := r }) rfl
    have hrest := exec_remainingBytes_of_aligned (k := 6)
      (s := { s with rbuf := buf, rpos := 48, response := some (.ok (.int 6)) }) rfl
    exact ⟨_, _, _, exec_hdrDecode_of_le hlen hmax, execAll_append htakes (execAll_cons hposition (execAll_cons hrest rfl)), rfl⟩

/-- R54: the bytes of the seven PUTs are the octets of HDR_ENCODE. -/
theorem packBytes_headerFields {h : PrimaryHeader} (hv : h.valid = true) :
    packBytes (fieldBits (headerFields h)) = octetsOfHeader h := by
  rw [← octetsOfPuts_eq_octetsOfHeader h hv, octetsOfPuts]
  simp [headerFields]

/-- Settles O27: the seven PUTs append the fields of R104, and fail where one is out of its range. -/
theorem sevenPutsEncodeAHeader : Obligations.SevenPutsEncodeAHeader := by
  refine ⟨fun h s hv hmax => ?_, fun h s hv hmax => ?_⟩
  · obtain ⟨rs, t, hrun, hraise⟩ := execAll_puts_overflow (headerFields_legal h)
      (s := { s with wbits := [], response := some (.ok .nothing) }) (Nat.mul_le_mul_left 8 hmax)
    have hbad : ∃ f ∈ headerFields h, 2 ^ f.2 ≤ f.1 := by
      have hfit := mt (headerFields_fit_iff h).mp (by simp [hv])
      simpa using hfit
    exact ⟨_, t, exec_hdrEncode_of_not_valid (by simp [hv]), execAll_cons rfl hrun, List.mem_append_right _ (hraise hbad)⟩
  · have hrun := execAll_puts_wrRead (s := { s with wbits := [], response := some (.ok .nothing) }) rfl (headerFields_legal h)
      ((headerFields_fit_iff h).mpr hv) (by rw [headerFields_sum]) (Nat.mul_le_mul_left 8 hmax)
    rw [packBytes_headerFields hv] at hrun
    exact ⟨_, _, exec_hdrEncode_of_valid hv hmax, execAll_cons rfl hrun,
      (fieldBits_length _).trans (headerFields_sum h), rfl, rfl⟩

end Sys2Proof.Machine
end

section
/-! PROOFS. The refusals of the spec (93_implementation_defined.md) and where MAX_BUF stands among them (R30, R44); and the codec
operations, which end the same way whatever the cursors are (R10). -/

namespace Sys2Proof.Machine

/-! ## Buffers beyond MAX_BUF (R30, R44, U8) -/

/-- Settles O43: the test of a presented buffer comes first, that of a result last. -/
theorem buffersBeyondMaxBufAreRefused : Obligations.BuffersBeyondMaxBufAreRefused := by
  refine ⟨fun buf s hgt => ?presented, fun h s hv hgt => ?encode, fun p s hv hpayload hgt => ?toBytes⟩
  case presented =>
    exact ⟨withinMaxBuf_of_gt _ hgt, withinMaxBuf_of_gt _ hgt, withinMaxBuf_of_gt _ hgt, fun _ _ _ _ _ =>
      withinMaxBuf_of_gt _ hgt, fun _ _ => withinMaxBuf_of_gt _ hgt⟩
  case encode =>
    exact (congrArg (finishBuffer s) (if_pos hv)).trans (finishBuffer_done_of_gt hgt)
  case toBytes =>
    calc exec (.pktToBytes p) s
        = finishBuffer s (packetToBytes s.cfg.cap p) := withinMaxBuf_of_le _ hpayload
      _ = finishBuffer s (.done _) := congrArg (finishBuffer s) (packetToBytes_of_valid hv)
      _ = _ := finishBuffer_done_of_gt (hgt.trans_eq (serialised_length s.cfg.cap p).symm)

/-! ## The outcome by the refusal (R8, R65) -/

/-- An outcome is the refusal expected, or, where none is, a next state with a response. -/
def EndsAs (o : Host.Outcome State Fault Refusal) : Option Refusal → Prop
  | some r => o = .refused r
  | none => ∃ t, o = .next t ∧ t.response.isSome = true

theorem EndsAs.refused_iff {o : Host.Outcome State Fault Refusal} {q : Option Refusal} (h : EndsAs o q) (r : Refusal) :
    o = .refused r ↔ q = some r := by
  cases q with
  | some q => simp [show o = .refused q from h]
  | none =>
    obtain ⟨t, rfl, -⟩ := h
    simp

theorem EndsAs.next_iff {o : Host.Outcome State Fault Refusal} {q : Option Refusal} (h : EndsAs o q) :
    (∃ t, o = .next t ∧ t.response.isSome = true) ↔ q = none := by
  cases q with
  | some q => simp [show o = .refused q from h]
  | none => exact ⟨fun _ => rfl, fun _ => h⟩

theorem endsAs_complete (s : State) (r : Result) : EndsAs (complete s r) none := ⟨_, rfl, rfl⟩

theorem endsAs_raiseError (s : State) (e : SphcError) : EndsAs (raiseError s e) none := ⟨_, rfl, rfl⟩

/-- A test of the model decides as its counterpart in the list of refusals does. -/
theorem EndsAs.ite {c d : Prop} [Decidable c] [Decidable d] {o o' : Host.Outcome State Fault Refusal} {q q' : Option Refusal}
    (hcd : d ↔ ¬ c) (hpos : c → EndsAs o q') (hneg : ¬ c → EndsAs o' q) :
    EndsAs (if c then o else o') (if d then q else q') := by
  by_cases hc : c
  · rw [if_pos hc, if_neg (fun hd => hcd.mp hd hc)]
    exact hpos hc
  · rw [if_neg hc, if_pos (hcd.mpr hc)]
    exact hneg hc

/-- The bound on a presented buffer (R44). -/
theorem endsAs_withinMaxBuf {s : State} {buf : List Byte} {o : Host.Outcome State Fault Refusal} {q : Option Refusal}
    (h : buf.length ≤ s.cfg.maxBuf → EndsAs o q) :
    EndsAs (withinMaxBuf s buf o) (if s.cfg.maxBuf < buf.length then some .bufferLongerThanMaxBuf else q) :=
  .ite not_le.symm h fun _ => rfl

/-- How the pure part of an operation refuses, if it does. -/
def OpResult.refusal {α : Type} : OpResult α → Option Refusal
  | .refuse r => some r
  | .done _ => none
  | .raise _ => none

theorem endsAs_finish {α : Type} (s : State) (f : α → Result) (r : OpResult α) : EndsAs (finish s f r) r.refusal := by
  cases r with
  | done a => exact endsAs_complete s (f a)
  | raise e => exact endsAs_raiseError s e
  | refuse q => rfl

/-! ## Each operation -/

/-- R38, R60: the octets a whole header declares, by its field `data_length`. -/
theorem declaredOctets_eq {buf : List Byte} (hlen : 6 ≤ buf.length) :
    declaredOctets buf = 6 + (headerOfOctets buf).dataLength + 1 := by
  obtain ⟨b0, b1, b2, b3, b4, b5, rest, rfl⟩ := exists_eq_six_octets_append hlen
  have := b4.isLt
  have := b5.isLt
  have hdataLength : (headerOfOctets (b0 :: b1 :: b2 :: b3 :: b4 :: b5 :: rest)).dataLength = 256 * b4.toNat + b5.toNat := by
    simp only [headerOfOctets, bitsOf_headerWord b0 b1 b2 b3 b4 b5 rest (by decide : 32 + 16 ≤ 48), headerWord_toNat]
    omega
  rw [hdataLength]
  rfl

/-- R123: behind the length check nothing is refused. -/
theorem packetOfDataField_refusal (cap : Cap) (h : PrimaryHeader) (rest : List Byte) :
    (packetOfDataField cap h rest).refusal = none := by
  rw [packetOfDataField]
  split
  · rfl
  · split
    · rfl
    · rfl
    · split_ifs <;> rfl

/-- R124, U4: a parse is refused exactly where octets are left over. -/
theorem packetParse_refusal (cap : Cap) (buf : List Byte) :
    (packetParse cap buf).refusal = if declaredOctets buf < buf.length then some .bufferLongerThanPacket else none := by
  rcases Nat.lt_or_ge buf.length 6 with hshort | hlen
  · have hall : ¬ declaredOctets buf < buf.length := by
      simp only [declaredOctets]
      omega
    rw [packetParse_of_length_lt hshort, if_neg hall]
    rfl
  · have hdecode := headerDecode_of_le hlen
    have hrest : (buf.drop 6).length = buf.length - 6 := List.length_drop
    rw [declaredOctets_eq hlen]
    rcases lt_trichotomy (buf.drop 6).length ((headerOfOctets buf).dataLength + 1) with hlt | heq | hgt
    · rw [packetParse_of_rest_lt hdecode hlt, if_neg (by omega)]
      rfl
    · rw [packetParse_of_rest_eq hdecode heq, if_neg (by omega), packetOfDataField_refusal]
    · rw [packetParse_of_rest_gt hdecode hgt, if_pos (by omega)]
      rfl

/-- R126: PKT_BUILD returns or raises. -/
theorem packetBuild_refusal (cap : Cap) (apid : Nat) (ptype : PacketType) (sflags : SequenceFlags) (scount : Nat)
    (sh : Option SecHeader) (payload : List Byte) :
    (packetBuild cap apid ptype sflags scount sh payload).refusal = none := by
  simp only [packetBuild]
  split_ifs <;> rfl

/-- R101: HDR_DECODE returns or raises. -/
theorem headerDecode_refusal (buf : List Byte) : (headerDecode buf).refusal = none := by
  rw [headerDecode]
  split_ifs <;> rfl

/-- The test of a result (R30) comes after R14's ranges, so only a valid header meets it. -/
theorem endsAs_finishBuffer {s : State} {h : RawHeader} {bs : List Byte} {r : OpResult (List Byte)} {len : Nat}
    (hvalid : h.valid = true → r = .done bs) (hnot : ¬ h.valid = true → r = .raise .fieldOverflow) (hlen : bs.length = len) :
    EndsAs (finishBuffer s r) (if h.valid = true ∧ s.cfg.maxBuf < len then some .resultLongerThanMaxBuf else none) := by
  by_cases hv : h.valid = true
  · rw [hvalid hv, ← hlen]
    exact .ite (by simp [hv]) (fun _ => endsAs_complete s _) fun _ => rfl
  · rw [hnot hv, if_neg fun hc => hv hc.1]
    exact endsAs_raiseError s _

/-- Every operation ends as the list of the spec's refusals says. -/
theorem exec_endsAs (i : Instr) (s : State) : EndsAs (exec i s) (specRefusal s i) := by
  cases i with
  | take n =>
    refine .ite (not_legalCount_iff n).symm (fun _ => ?_) fun _ => rfl
    split_ifs
    · exact endsAs_raiseError s _
    · exact endsAs_complete _ _
  | put v n =>
    refine .ite (not_legalCount_iff n).symm (fun _ => ?_) fun _ => rfl
    by_cases hfits : v < 2 ^ n
    · rw [if_pos ((fits_iff v n).mpr hfits)]
      exact .ite (by simp [hfits]) (fun _ => endsAs_complete _ _) fun _ => rfl
    · rw [if_neg (mt (fits_iff v n).mp hfits), if_neg fun hc => hfits hc.1]
      exact endsAs_raiseError s _
  | bytePosition => exact .ite Iff.rfl (fun _ => endsAs_complete s _) fun _ => rfl
  | remainingBytes => exact .ite Iff.rfl (fun _ => endsAs_complete s _) fun _ => rfl
  | wrRead => exact .ite Iff.rfl (fun _ => endsAs_complete s _) fun _ => rfl
  | hdrDecode buf => exact endsAs_withinMaxBuf fun _ => headerDecode_refusal buf ▸ endsAs_finish s _ _
  | hdrEncode h => exact endsAs_finishBuffer (fun hv => if_pos hv) (fun hv => if_neg hv) (octetsOfHeader_length h)
  | pktParse buf => exact endsAs_withinMaxBuf fun _ => packetParse_refusal s.cfg.cap buf ▸ endsAs_finish s _ _
  | pktBuild apid ptype sflags scount sh payload =>
    exact endsAs_withinMaxBuf fun _ =>
      packetBuild_refusal s.cfg.cap apid ptype sflags scount sh payload ▸ endsAs_finish s _ _
  | pktToBytes p =>
    exact endsAs_withinMaxBuf fun _ =>
      endsAs_finishBuffer packetToBytes_of_valid packetToBytes_of_not_valid (serialised_length s.cfg.cap p)
  | rdLoad buf => exact endsAs_withinMaxBuf fun _ => endsAs_complete _ _
  | wrClear => exact endsAs_complete _ _
  | reserved0 | reservedD | reservedE | reservedF | primaryHeader h => rfl

/-- Settles O12: the end of every operation is the one its entry in the list says. -/
theorem everyOperationCompletesUnlessTheSpecRefuses : Obligations.EveryOperationCompletesUnlessTheSpecRefuses :=
  fun i s => ⟨(exec_endsAs i s).refused_iff, (exec_endsAs i s).next_iff⟩

/-! ## The codec operations and the cursors (R10) -/

/-- R37: the codec operations are among the idempotent ones. -/
theorem isIdempotent_of_isCodecOperation {i : Instr} (hi : isCodecOperation i = true) : isIdempotent i = true := by
  cases i with
  | bytePosition | remainingBytes | wrRead => rfl
  | take n | put v n | hdrDecode buf | hdrEncode h | pktParse buf | pktBuild apid ptype sflags scount sh payload
  | pktToBytes p | rdLoad buf | wrClear | reserved0 | reservedD | reservedE | reservedF | primaryHeader h => exact hi

/-- Settles O9: a codec operation writes the response alone, and its answer depends on the configuration alone. -/
theorem codecOperationsIgnoreTheCursors : Obligations.CodecOperationsIgnoreTheCursors := by
  intro i s t hi hcfg
  have hanswer : answerOf (exec i s) = answerOf (exec i t) := answerOf_exec_congr_of_isCodecOperation hi hcfg
  have hidem : isIdempotent i = true := isIdempotent_of_isCodecOperation hi
  refine ⟨fun s' hs => ⟨exec_frame_of_isIdempotent hidem hs, ?_⟩, fun q hs => ?_⟩
  · obtain ⟨t', ht, hresponse⟩ := answerOf_eq_next_iff.mp (hanswer ▸ answerOf_eq_next_iff.mpr ⟨s', hs, rfl⟩)
    rw [ht, exec_frame_of_isIdempotent hidem ht, hresponse]
  · exact answerOf_eq_refused_iff.mp (hanswer ▸ answerOf_eq_refused_iff.mpr hs)

end Sys2Proof.Machine
end

section
/-! PROOFS. R130, R16, R181: what the marshaller returns. Built packets are valid, serialised ones have the length their header
declares, and with no capability bound only the secondary header is lost. -/

namespace Sys2Proof.Machine

/-- Settles O32: the packet answered is the packet built (R128). -/
theorem builtPacketsAreValid : Obligations.BuiltPacketsAreValid := by
  intro apid ptype sflags scount sh payload s t p hexec hresponse
  obtain ⟨hbuild, -⟩ := exec_pktBuild_ok_packet hexec hresponse
  exact packetBuild_done hbuild

/-- R130: in a valid packet, under law 1 of R21, the octets behind the header are as many as it declares, and at most 65536. -/
theorem octetsOf_add_payload_length {cap : Cap} {p : SpacePacket} (hp : p.valid cap = true)
    (hlaw : ∀ sh, p.secondary = some sh → cap.shLength sh = (cap.shEncode sh).length) :
    (cap.octetsOf p.secondary).length + p.payload.length = p.header.dataLength + 1 := by
  obtain ⟨-, -, hlength⟩ := (SpacePacket.valid_iff cap p).mp hp
  rw [hlength]
  cases hsh : p.secondary with
  | none => rfl
  | some sh => rw [Cap.octetsOf, Cap.lengthOf, hlaw sh hsh]

/-- Settles O33: the three parts are concatenated, and the last two are the data field the header declares. -/
theorem serialisedLengthIsSixPlusDataField : Obligations.SerialisedLengthIsSixPlusDataField := by
  refine ⟨fun p s hv hmax => ⟨_, exec_pktToBytes_of_valid hv hmax, serialised_length s.cfg.cap p⟩, fun p s hp hlaw hmax => ?_⟩
  obtain ⟨hv, -, -⟩ := (SpacePacket.valid_iff s.cfg.cap p).mp hp
  obtain ⟨-, -, -, hdataLength⟩ := (PrimaryHeader.valid_iff p.header).mp hv
  have hfield := octetsOf_add_payload_length hp hlaw
  have hlen := serialised_length s.cfg.cap p
  refine ⟨_, exec_pktToBytes_of_valid hv (by omega), ?_, ?_, ?_⟩ <;> omega

/-- Settles O29: the unbound capability fails on every data field, and a packet without a secondary header never asks it. -/
theorem unboundCapabilityFailsTheParse : Obligations.UnboundCapabilityFailsTheParse := by
  intro buf rest h s hcap hmax hexec hlen
  have hparse : packetParse s.cfg.cap buf = packetOfDataField s.cfg.cap h rest :=
    packetParse_of_rest_eq (headerDecode_of_exec_hdrDecode hexec) hlen
  have hdecode : s.cfg.cap.shDecode rest = .fail Config.unboundError := by
    rw [hcap]
    rfl
  rw [exec_pktParse_of_le hmax, hparse]
  exact ⟨fun hflag => ⟨_, congrArg (finish s _) (packetOfDataField_of_fail hflag hdecode)⟩,
    fun hflag => congrArg (finish s _) (packetOfDataField_of_notPresent hflag)⟩

end Sys2Proof.Machine
end
